-- ==== Sys2Proof/Word.lean ====
section
/-! DEFINITION. The two word types of WSP-CORE: the byte, which every buffer and stream is made of, and the 16-bit
command word of rule R80. -/

namespace Sys2Proof

/-- A byte of a stream or buffer: "Bytes are 8-bit unsigned" (R16). Bit 7 is the most significant (R14). -/
abbrev Byte := BitVec 8

/-- The 16-bit command word (R80), which is also the width of the status word (R31). -/
abbrev Word := BitVec 16

/-- A list of bytes, indexed from 0 (R14). -/
abbrev Bytes := List Byte

end Sys2Proof
end

