-- ==== Sys2Proof/Syntax.lean ====
section
/-! DEFINITION. The instructions of WSP-CORE, one constructor of `Instr` for each row of spec/opcode_table.json: the 16
wire opcodes of R74, whose operands are the bytes of a frame, and the 10 command words of R81. Also the command as the host
passes it (R80) and the frame header the decoder stores (R20). -/

namespace Sys2Proof

/-- The four mask bytes in wire order (R50, R73); a key is exactly four bytes (R150). -/
structure Key where
  k0 : Byte
  k1 : Byte
  k2 : Byte
  k3 : Byte
  deriving DecidableEq, Repr, Inhabited

/-- The payload length as a frame encodes it (R70): the 7-bit field itself, or one of its two extensions. -/
inductive LenField where
  /-- `len7` in 0..125. -/
  | short (n : BitVec 7)
  /-- `len7 = 126`, followed by a 16-bit big-endian length. -/
  | ext16 (n : BitVec 16)
  /-- `len7 = 127`, followed by a 64-bit big-endian length. -/
  | ext64 (n : BitVec 64)
  deriving DecidableEq, Repr

/-- The resolved payload length, a natural number (R72). -/
def LenField.value : LenField → Nat
  | .short n => n.toNat
  | .ext16 n => n.toNat
  | .ext64 n => n.toNat

/-- The operands of a wire instruction: every field of the frame of R70 but the opcode. The header is whole; `payload` holds
the payload bytes that arrived with it, as they stand on the wire (still masked when there is a key). It may be shorter than
`len.value`, since "a chunk may end anywhere in a frame" (R100). `key` is present iff the MASK bit is 1 (R73). -/
structure Frame where
  fin     : Bool
  rsv1    : Bool
  rsv2    : Bool
  rsv3    : Bool
  len     : LenField
  key     : Option Key
  payload : Bytes
  deriving DecidableEq, Repr

/-- The rows of spec/opcode_table.json: 16 of format `wire` (R74, R120 to R127), then 10 of format `cmd` (R81). -/
inductive Instr where
  | continuation (f : Frame)
  | text (f : Frame)
  | binary (f : Frame)
  | invalid3 (f : Frame)
  | invalid4 (f : Frame)
  | invalid5 (f : Frame)
  | invalid6 (f : Frame)
  | invalid7 (f : Frame)
  | close (f : Frame)
  | ping (f : Frame)
  | pong (f : Frame)
  | invalidB (f : Frame)
  | invalidC (f : Frame)
  | invalidD (f : Frame)
  | invalidE (f : Frame)
  | invalidF (f : Frame)
  /-- INIT: `masking` is the command word's F bit (R180). -/
  | init (masking : Bool)
  | feed (chunk : Bytes)
  | buildCont (payload : Bytes)
  | buildText (payload : Bytes)
  | buildBinary (payload : Bytes)
  | buildClose (payload : Bytes)
  | buildPing (payload : Bytes)
  | buildPong (payload : Bytes)
  /-- MASK: the key is present iff the command word's F bit is 1 (R151). -/
  | mask (bytes : Bytes) (key : Option Key) (offset : Nat)
  | status
  deriving DecidableEq, Repr

/-- A command as the host issues it: the command word and, beside it, the data operands (R80). `data` is the `chunk` of FEED,
the `payload` of BUILD or the `bytes` of MASK; `key` and `offset` are read by MASK alone, `key` only when F = 1 (R81). -/
structure Command where
  word   : Word
  data   : Bytes
  key    : Key
  offset : Nat
  deriving DecidableEq, Repr

/-- The finalized header of the current frame, `hdr` of R20 (the source's `FrameHeader`). `mask` is "present iff `masked`"
(R73). -/
structure Header where
  fin           : Bool
  opcode        : BitVec 4
  masked        : Bool
  payloadLength : Nat
  payloadOffset : Nat
  mask          : Option Key
  deriving DecidableEq, Repr, Inhabited

end Sys2Proof
end

