-- ==== Sys2Proof/WellFormed.lean ====
section
/-! DEFINITION. Which terms of `Instr` stand for instructions: the operands a frame's encoding admits (R70, R72). A command's
operands are all legal (R81: any bytes, any offset, a key of exactly four bytes or none). RSV bits that are set, invalid opcodes
and a control frame with FIN = 0 are well-formed here: their meaning is the error they raise. -/

namespace Sys2Proof

/-- `len7` values 126 and 127 announce an extension, so the 7-bit form holds 0..125 (R70). -/
def LenField.wf : LenField → Bool
  | .short n => n.toNat ≤ 125
  | .ext16 _ => true
  | .ext64 _ => true

/-- The length field is one of the three forms, and no more payload bytes stand in the frame than it announces (R71: the next
frame begins after `hsize + payloadLength` bytes). -/
def Frame.wf (f : Frame) : Bool :=
  f.len.wf && decide (f.payload.length ≤ f.len.value)

/-- Well-formedness of an instruction. -/
def Instr.wf : Instr → Bool
  | .continuation f => f.wf
  | .text f => f.wf
  | .binary f => f.wf
  | .invalid3 f => f.wf
  | .invalid4 f => f.wf
  | .invalid5 f => f.wf
  | .invalid6 f => f.wf
  | .invalid7 f => f.wf
  | .close f => f.wf
  | .ping f => f.wf
  | .pong f => f.wf
  | .invalidB f => f.wf
  | .invalidC f => f.wf
  | .invalidD f => f.wf
  | .invalidE f => f.wf
  | .invalidF f => f.wf
  | .init _ => true
  | .feed _ => true
  | .buildCont _ => true
  | .buildText _ => true
  | .buildBinary _ => true
  | .buildClose _ => true
  | .buildPing _ => true
  | .buildPong _ => true
  | .mask _ _ _ => true
  | .status => true

end Sys2Proof
end

