-- ==== Sys2Proof/Decode.lean ====
section
/-! DEFINITION. The two encodings of R70 and R80 read and written: byte order, the fields of a frame, the command word; the
decoder, total on any bytes and any command, rejecting by name; then the encoder, from the same tables. -/

namespace Sys2Proof

/-! ### Fields and byte order (R14, R15, R50) -/

/-- `be16`, `be64` (R15): the first byte on the wire is the most significant. -/
def beNat (s : Bytes) : Nat :=
  s.foldl (fun acc b => acc * 256 + b.toNat) 0

/-- `v` as `n` bytes, most significant first (R50, R161). -/
def beBytes : Nat → Nat → Bytes
  | 0, _ => []
  | n + 1, v => BitVec.ofNat 8 (v / 256 ^ n) :: beBytes n v

/-- FIN, `byte0[7]`. -/
def finOf (b0 : Byte) : Bool := b0.getLsbD 7

/-- The opcode, `byte0[3:0]`. -/
def opcodeOf (b0 : Byte) : BitVec 4 := b0.extractLsb' 0 4

/-- MASK, `byte1[7]`. -/
def maskedOf (b1 : Byte) : Bool := b1.getLsbD 7

/-- `len7`, `byte1[6:0]`. -/
def len7Of (b1 : Byte) : BitVec 7 := b1.extractLsb' 0 7

/-- `e(len7)`, the size of the extended length (R71). -/
def extSize (len7 : BitVec 7) : Nat :=
  if len7.toNat ≤ 125 then 0 else if len7.toNat = 126 then 2 else 8

/-- `hsize(b1) = 2 + e + (MASK ? 4 : 0)`, equal to `payloadOffset` (R71). -/
def hsize (b1 : Byte) : Nat :=
  2 + extSize (len7Of b1) + (if maskedOf b1 then 4 else 0)

/-- The key that four bytes hold in wire order (R73). -/
def keyOf : Bytes → Option Key
  | [a, b, c, d] => some ⟨a, b, c, d⟩
  | _ => none

/-- The key as four bytes in wire order; no bytes where there is no key. -/
def keyBytes : Option Key → Bytes
  | none => []
  | some k => [k.k0, k.k1, k.k2, k.k3]

/-! ### The decoder -/

/-- Why bytes or a command are no instruction. The five of a command word are the five items of R82. -/
inductive Reject where
  /-- CMD is 0x0 or 0x6 to 0xF. -/
  | reservedClass
  /-- Reserved bits [7:1] are not all 0. -/
  | reservedBits
  /-- OPC is not 0 for a class other than BUILD. -/
  | opcNotZero
  /-- OPC is not one of 0, 1, 2, 8, 9, 10 for BUILD. -/
  | notBuildable
  /-- F is 1 for FEED, BUILD or STATUS. -/
  | flagNotZero
  /-- The bytes end before the frame's header does (R79). -/
  | headerIncomplete
  /-- Bytes stand after the end of the frame. -/
  | bytesAfterFrame
  deriving DecidableEq, Repr

/-- The wire instruction of an opcode value: all 16 values of R74. -/
def wireInstr (op : BitVec 4) (f : Frame) : Instr :=
  match op.toNat with
  | 0 => .continuation f
  | 1 => .text f
  | 2 => .binary f
  | 3 => .invalid3 f
  | 4 => .invalid4 f
  | 5 => .invalid5 f
  | 6 => .invalid6 f
  | 7 => .invalid7 f
  | 8 => .close f
  | 9 => .ping f
  | 10 => .pong f
  | 11 => .invalidB f
  | 12 => .invalidC f
  | 13 => .invalidD f
  | 14 => .invalidE f
  | _ => .invalidF f

/-- The length field that `len7` and the extension bytes `ext` (of which there are `e(len7)`) hold (R70, R72). -/
def lenFieldOf (len7 : BitVec 7) (ext : Bytes) : LenField :=
  if len7.toNat ≤ 125 then .short len7
  else if len7.toNat = 126 then .ext16 (BitVec.ofNat 16 (beNat ext))
  else .ext64 (BitVec.ofNat 64 (beNat ext))

/-- One frame from the front of a byte stream, and the bytes after it (R70, R79): the two base bytes, the extended length, the
key, then as many payload bytes as the length announces and the stream holds. -/
def decodeFrame : Bytes → Except Reject (Instr × Bytes)
  | b0 :: b1 :: tail =>
    let e := extSize (len7Of b1)
    if tail.length < hsize b1 - 2 then .error .headerIncomplete
    else
      let len := lenFieldOf (len7Of b1) (tail.take e)
      let rest := tail.drop e
      let key := if maskedOf b1 then keyOf (rest.take 4) else none
      let body := if maskedOf b1 then rest.drop 4 else rest
      .ok (wireInstr (opcodeOf b0)
            { fin := finOf b0, rsv1 := b0.getLsbD 6, rsv2 := b0.getLsbD 5, rsv3 := b0.getLsbD 4
              len := len, key := key, payload := body.take len.value },
          body.drop len.value)
  | _ => .error .headerIncomplete

/-- The BUILD command of an OPC field (R81): one of the six, or illegal (R82 item 4). -/
def buildInstr (opc : BitVec 4) (payload : Bytes) : Except Reject Instr :=
  match opc.toNat with
  | 0 => .ok (.buildCont payload)
  | 1 => .ok (.buildText payload)
  | 2 => .ok (.buildBinary payload)
  | 8 => .ok (.buildClose payload)
  | 9 => .ok (.buildPing payload)
  | 10 => .ok (.buildPong payload)
  | _ => .error .notBuildable

/-- A command by the fields of its word, CMD, OPC, reserved and F (R80), and its operands (R81); each illegal word of R82 is rejected
by name. -/
def decodeFields (cmd opc : BitVec 4) (reserved : BitVec 7) (f : Bool) (data : Bytes) (key : Key) (offset : Nat) :
    Except Reject Instr :=
  if reserved ≠ 0#7 then .error .reservedBits
  else
    match cmd.toNat with
    | 1 => if opc ≠ 0#4 then .error .opcNotZero else .ok (.init f)
    | 2 => if opc ≠ 0#4 then .error .opcNotZero else if f then .error .flagNotZero else .ok (.feed data)
    | 3 => if f then .error .flagNotZero else buildInstr opc data
    | 4 => if opc ≠ 0#4 then .error .opcNotZero else .ok (.mask data (if f then some key else none) offset)
    | 5 => if opc ≠ 0#4 then .error .opcNotZero else if f then .error .flagNotZero else .ok .status
    | _ => .error .reservedClass

/-- A command word with its operands (R80). -/
def decodeCommand (c : Command) : Except Reject Instr :=
  decodeFields (c.word.extractLsb' 12 4) (c.word.extractLsb' 8 4) (c.word.extractLsb' 1 7) (c.word.getLsbD 0)
    c.data c.key c.offset

/-- An instruction as it is laid out: the bytes of a frame, or a command word with its operands. -/
inductive Encoding where
  | wire (bytes : Bytes)
  | cmd (c : Command)
  deriving DecidableEq, Repr

/-- The decoder. The bytes of a wire encoding are one frame and no more. -/
def decode : Encoding → Except Reject Instr
  | .wire bytes =>
    match decodeFrame bytes with
    | .ok (i, []) => .ok i
    | .ok (_, _ :: _) => .error .bytesAfterFrame
    | .error r => .error r
  | .cmd c => decodeCommand c

/-! ### The encoder -/

/-- A bit as the one-bit field that `++` joins. -/
def bit (b : Bool) : BitVec 1 := BitVec.ofBool b

/-- Byte 0: FIN, RSV1, RSV2, RSV3, opcode (R70). -/
def Frame.byte0 (op : BitVec 4) (f : Frame) : Byte :=
  bit f.fin ++ bit f.rsv1 ++ bit f.rsv2 ++ bit f.rsv3 ++ op

/-- The 7-bit field: the length itself, 126 or 127 (R70). -/
def LenField.len7 : LenField → BitVec 7
  | .short n => n
  | .ext16 _ => 126#7
  | .ext64 _ => 127#7

/-- The extended-length bytes, big-endian (R50, R70). -/
def LenField.ext : LenField → Bytes
  | .short _ => []
  | .ext16 n => beBytes 2 n.toNat
  | .ext64 n => beBytes 8 n.toNat

/-- Byte 1: MASK, len7 (R70). -/
def Frame.byte1 (f : Frame) : Byte :=
  bit f.key.isSome ++ f.len.len7

/-- The bytes of a frame, in the order of the diagram of R70. -/
def Frame.bytes (op : BitVec 4) (f : Frame) : Bytes :=
  f.byte0 op :: f.byte1 :: (f.len.ext ++ keyBytes f.key ++ f.payload)

/-- A command word: CMD [15:12], OPC [11:8], reserved [7:1] = 0, F [0] (R80). -/
def commandWord (cmd opc : BitVec 4) (f : Bool) : Word :=
  cmd ++ opc ++ 0#7 ++ bit f

/-- A command with no operand but `data`. -/
def dataCommand (cmd opc : BitVec 4) (f : Bool) (data : Bytes) : Command :=
  { word := commandWord cmd opc f, data := data, key := ⟨0#8, 0#8, 0#8, 0#8⟩, offset := 0 }

/-- The encoder: R70 and R74 for the wire rows, R80 and R81 for the commands. -/
def encode : Instr → Encoding
  | .continuation f => .wire (f.bytes 0#4)
  | .text f => .wire (f.bytes 1#4)
  | .binary f => .wire (f.bytes 2#4)
  | .invalid3 f => .wire (f.bytes 3#4)
  | .invalid4 f => .wire (f.bytes 4#4)
  | .invalid5 f => .wire (f.bytes 5#4)
  | .invalid6 f => .wire (f.bytes 6#4)
  | .invalid7 f => .wire (f.bytes 7#4)
  | .close f => .wire (f.bytes 8#4)
  | .ping f => .wire (f.bytes 9#4)
  | .pong f => .wire (f.bytes 10#4)
  | .invalidB f => .wire (f.bytes 11#4)
  | .invalidC f => .wire (f.bytes 12#4)
  | .invalidD f => .wire (f.bytes 13#4)
  | .invalidE f => .wire (f.bytes 14#4)
  | .invalidF f => .wire (f.bytes 15#4)
  | .init m => .cmd (dataCommand 1#4 0#4 m [])
  | .feed chunk => .cmd (dataCommand 2#4 0#4 false chunk)
  | .buildCont p => .cmd (dataCommand 3#4 0#4 false p)
  | .buildText p => .cmd (dataCommand 3#4 1#4 false p)
  | .buildBinary p => .cmd (dataCommand 3#4 2#4 false p)
  | .buildClose p => .cmd (dataCommand 3#4 8#4 false p)
  | .buildPing p => .cmd (dataCommand 3#4 9#4 false p)
  | .buildPong p => .cmd (dataCommand 3#4 10#4 false p)
  | .mask bytes none offset =>
    .cmd { word := commandWord 4#4 0#4 false, data := bytes, key := ⟨0#8, 0#8, 0#8, 0#8⟩, offset := offset }
  | .mask bytes (some k) offset =>
    .cmd { word := commandWord 4#4 0#4 true, data := bytes, key := k, offset := offset }
  | .status => .cmd (dataCommand 5#4 0#4 false [])

/-! ### Words as spec/opcode_table.json numbers them -/

/-- A row of format `wire` is 8 bits wide, the frame's byte 0; the bytes the table gives no bits are zeros: byte 1 (R70). -/
def tableFrame (w : Nat) : Bytes := [BitVec.ofNat 8 w, 0#8]

/-- A row of format `cmd` is 16 bits wide, the command word; its operands are empty. -/
def tableCommand (w : Nat) : Command :=
  { word := BitVec.ofNat 16 w, data := [], key := ⟨0#8, 0#8, 0#8, 0#8⟩, offset := 0 }

/-- What the decoder reads from an instruction numbered as spec/opcode_table.json numbers it: 8 bits are the first byte of a
frame whose other bits are 0, 16 bits are a command word without data. -/
def decodeTableWord (nbits w : Nat) : Option Instr :=
  if nbits = 8 then (decode (.wire (tableFrame w))).toOption
  else if nbits = 16 then (decode (.cmd (tableCommand w))).toOption
  else none

end Sys2Proof
end

