-- ==== Sys2Proof/Config.lean ====
section
/-! DEFINITION. The implementation parameters of WSP-CORE (R8, R9, R10) and the free values: what the spec leaves open. A free
value is an opaque constant, so that no proof can rest on what it is. -/

namespace Sys2Proof

/-- The parameters a model takes as arguments (R8 to R10; 92_eei_decisions.md). A value of this type stands in State and no
step changes it, so that a claim about every state is a claim about every choice of the parameters (log 3). -/
structure Params where
  /-- `LEN_CEILING` (R8): a payload length at or above it is rejected with `UnsupportedLength`. -/
  lenCeiling        : Nat
  /-- `PAYLOAD_CAPACITY` (R9): the largest payload the decoder's buffer holds. -/
  payloadCapacity   : Nat
  /-- `ENFORCE_CONTROL_LEN` (R10): whether control frames above 125 payload bytes are an error. -/
  enforceControlLen : Bool
  deriving DecidableEq, Repr

/-- The legal range of the parameters: 2^53 ≤ `LEN_CEILING` ≤ 2^63 (R8). -/
abbrev Params.Legal (p : Params) : Prop :=
  9007199254740992 ≤ p.lenCeiling ∧ p.lenCeiling ≤ 9223372036854775808

/-- FREE VALUE (log 3). `PAYLOAD_CAPACITY` is "left open, with no default" (R9). -/
opaque Config.payloadCapacity : Nat

/-- The parameters at their defaults: `LEN_CEILING` = 2^53 (R8), `ENFORCE_CONTROL_LEN` = false (R10), and the open capacity. -/
def Config.defaultParams : Params :=
  { lenCeiling := 9007199254740992, payloadCapacity := Config.payloadCapacity, enforceControlLen := false }

/-- FREE VALUE (log 4). The random source's answer to its n-th draw, with no law on it (R11), where State lists none. -/
opaque Config.draw4 : Nat → Key

/-- FREE VALUE (log 7). `hbuf` and `hcnt` after the n-th error, "unspecified" by R36. -/
opaque Config.deadHbuf : Nat → Bytes

/-- FREE VALUE (log 7). `hdr` and `hdr_valid` after the n-th error, "unspecified" by R36. -/
opaque Config.deadHdr : Nat → Option Header

/-- FREE VALUE (log 7). `pbuf` and `written` after the n-th error, "unspecified" by R36. -/
opaque Config.deadPbuf : Nat → Bytes

end Sys2Proof
end

