-- ==== Sys2Proof/Machine/State.lean ====
section
/-! DEFINITION. The state of one WSP-CORE instance as plain data: every element of the table of R20, and beside them the model's
own fields, which are the block's inputs and outputs (pending commands, the response, the observation, the random source) and
the counters of the free values. -/

namespace Sys2Proof.Machine

/-- The decoder's phases (R26). The value 3 is never held. -/
inductive Phase where
  | awaitHeader
  | awaitPayload
  | error
  deriving DecidableEq, Repr

/-- The error kinds (R200). No error (code 0) is the absent kind; codes 7 to 15 are never produced. -/
inductive ErrKind where
  | rsvNonZero
  | invalidOpcode
  | expectedFinal
  | unsupportedLength
  | controlFrameTooLong
  | capacityExceeded
  deriving DecidableEq, Repr

/-- The events of a FEED response (R83). -/
inductive Event where
  | emit (opcode : BitVec 4) (fin : Bool) (payload : Bytes)
  | error (kind : ErrKind)
  deriving DecidableEq, Repr

/-- The responses (R83). -/
inductive Response where
  | events (list : List Event)
  | frame (bytes : Bytes)
  | err (kind : ErrKind)
  | bytes (bytes : Bytes)
  | status (word : Word)
  | done
  | illegal
  deriving DecidableEq, Repr

/-- The decoder's state (R20). Three pairs of R20 are stored as one field each, which holds the meaningful bytes and no others
(log 6): `hbuf`/`hcnt` is the list `hbuf[0..hcnt)` (R27), `pbuf`/`written` the list `pbuf[0..written)` (R29), and `hdr`/`hdr_valid`
an optional header (R28). -/
structure Decoder where
  /-- `phase` (R26). -/
  phase   : Phase
  /-- `err_kind`; absent is code 0 (R23). -/
  errKind : Option ErrKind
  /-- `hbuf[0..hcnt)`: the header bytes of the current frame received so far (R27). -/
  hbuf    : Bytes
  /-- `hdr` where `hdr_valid` is 1, absent where it is 0 (R28). -/
  hdr     : Option Header
  /-- `pbuf[0..written)`: the payload bytes of the current frame received so far, still masked (R29). -/
  pbuf    : Bytes
  deriving DecidableEq, Repr

/-- `hcnt` (R20, R27). -/
def Decoder.hcnt (d : Decoder) : Nat := d.hbuf.length

/-- `hdr_valid` (R20, R28). -/
def Decoder.hdrValid (d : Decoder) : Bool := d.hdr.isSome

/-- `written` (R20, R29). -/
def Decoder.written (d : Decoder) : Nat := d.pbuf.length

/-- The decoder after INIT (R33): phase AWAIT_HEADER, no error, `hcnt` 0, `hdr_valid` 0, `written` 0. -/
def Decoder.initial : Decoder :=
  { phase := .awaitHeader, errKind := none, hbuf := [], hdr := none, pbuf := [] }

/-- The whole state. `constructed`, `cfgMasking` and `dec` are R20's; `params` are the parameters (R8 to R10), which no step
changes; the rest are the model's own fields (log 1, 2, 4, 7). -/
structure State where
  /-- The implementation parameters (log 3). -/
  params      : Params
  /-- `constructed` (R25). -/
  constructed : Bool
  /-- `cfg_masking` (R24). -/
  cfgMasking  : Bool
  /-- The decoder's elements of R20. -/
  dec         : Decoder
  /-- The commands the host has issued and the block has not yet accepted, oldest first (R12, R57). -/
  pending     : List Command
  /-- The response to the last command; absent before the first. -/
  response    : Option Response
  /-- The observation: the (command, response) pairs so far, oldest first (R13). -/
  trace       : List (Command × Response)
  /-- The answers the random source will give next, oldest first; after them it answers with the free value (R11). -/
  draws       : List Key
  /-- How many draws the block has made (R11, R165). -/
  drawCount   : Nat
  /-- How many times the decoder has raised: the index of the free values of R36. -/
  raiseCount  : Nat
  deriving DecidableEq, Repr

/-- Power-on (R35, R230): `constructed` is 0, and no command is pending. The spec states no other element: the values here are
the model's (log 5), and no command reads them before INIT. -/
def State.reset : State :=
  { params := Config.defaultParams
    constructed := false
    cfgMasking := false
    dec := Decoder.initial
    pending := []
    response := none
    trace := []
    draws := []
    drawCount := 0
    raiseCount := 0 }

/-- Why the machine stops with a fault. -/
inductive Fault where
  /-- Raised by FEED with a non-empty chunk in phase ERROR, and by a wire instruction there, since its bytes arrive by FEED.
  The spec asks a model for this fault: "a model must treat this case as a fault, `FeedAfterError`" (R114). SAFE: the hardware
  discards the bytes and goes on, so a claim about such a run is unprovable, never wrong. -/
  | feedAfterError
  deriving DecidableEq, Repr

/-- Why an instruction has no meaning. -/
inductive Refusal where
  /-- Raised by `exec` for an instruction that is not modelled; no arm raises it now. SAFE: nothing follows. -/
  | notModelled (mnemonic : String)
  deriving DecidableEq, Repr

end Sys2Proof.Machine
end

