-- ==== Sys2Proof/Machine/Flags.lean ====
section
/-! DEFINITION. The block's one status flag `err_kind` as a code, the phase as a code, and the status word made of them (R23, R26,
R31). The block has no condition codes (R23). -/

namespace Sys2Proof.Machine

/-- The numeric codes of the error kinds (R200). -/
def ErrKind.code : ErrKind → BitVec 4
  | .rsvNonZero => 1#4
  | .invalidOpcode => 2#4
  | .expectedFinal => 3#4
  | .unsupportedLength => 4#4
  | .controlFrameTooLong => 5#4
  | .capacityExceeded => 6#4

/-- `err_kind` as it reads: 0 means no error (R23). -/
def errCode : Option ErrKind → BitVec 4
  | none => 0#4
  | some k => k.code

/-- The numeric codes of the phases (R26). -/
def Phase.code : Phase → BitVec 2
  | .awaitHeader => 0#2
  | .awaitPayload => 1#2
  | .error => 2#2

/-- The status word (R31): ERR [7:4], CONSTRUCTED [3], MASKING [2], PHASE [1:0], [15:8] zero; "While `constructed == 0` the word
is 0x0000". -/
def statusWord (s : State) : Word :=
  if s.constructed then
    0#8 ++ errCode s.dec.errKind ++ bit s.constructed ++ bit s.cfgMasking ++ s.dec.phase.code
  else 0#16

end Sys2Proof.Machine
end

