-- ==== Sys2Proof/Machine/Operands.lean ====
section
/-! DEFINITION. The operand forms: the decoder's reading of a header (R72, R107), the encoder's choice of a length form (R162),
and the buffer reads of R15. -/

namespace Sys2Proof.Machine

/-- `MemRead(buf, a, n)`: bytes `buf[a..a+n)` (R15). -/
def memRead (buf : Bytes) (a n : Nat) : Bytes := (buf.drop a).take n

/-- `lenOf(len7, hbuf)`: the resolved payload length, exact and unsigned (R72, R107). -/
def lenOf (len7 : BitVec 7) (hbuf : Bytes) : Nat :=
  if len7.toNat ≤ 125 then len7.toNat
  else if len7.toNat = 126 then beNat (memRead hbuf 2 2)
  else beNat (memRead hbuf 2 8)

/-- The six opcodes {0,1,2,8,9,10} (R74). -/
def validOpcode (op : BitVec 4) : Bool :=
  op == 0#4 || op == 1#4 || op == 2#4 || op == 8#4 || op == 9#4 || op == 10#4

/-- The control opcodes {8,9,10} (R75). -/
def controlOpcode (op : BitVec 4) : Bool :=
  op == 8#4 || op == 9#4 || op == 10#4

/-- The encoder's extension size: the shortest form (R162). -/
def buildExt (len : Nat) : Nat :=
  if len ≤ 125 then 0 else if len ≤ 65535 then 2 else 8

/-- The encoder's `len7` (R161, R162). -/
def buildLen7 (len : Nat) : Nat :=
  if len ≤ 125 then len else if len ≤ 65535 then 126 else 127

end Sys2Proof.Machine
end

