-- ==== Sys2Proof/Machine/Ops.lean ====
section
/-! DEFINITION. The shared operations: answering a command, the `Illegal` answer (R182), constructing an instance (R180), the random
draw (R11), raising an error, which is this block's exception (R203), and the frame-boundary reset (R34). -/

namespace Sys2Proof.Machine

/-- What a meaning answers. -/
abbrev Result := Host.Outcome State Fault Refusal

/-- The response of the command in service (R12). -/
def State.respond (s : State) (r : Response) : State := { s with response := some r }

/-- `Illegal`: "It changes no state" (R201), and "does not write `err_kind` or `phase`" (R182). -/
def illegal (s : State) : Result := .next (s.respond .illegal)

/-- The dispatch check of R182 item 2: FEED and BUILD are illegal while `constructed == 0`. -/
def whenConstructed (s : State) (run : Result) : Result :=
  if s.constructed then run else illegal s

/-- Every element of R20 at its value after INIT(M) (R33), whatever state it was in. -/
def State.construct (s : State) (m : Bool) : State :=
  { s with constructed := true, cfgMasking := m, dec := Decoder.initial }

/-- The key that `draw4()` answers next (R11): the source's listed answer, else the free value. -/
def State.nextDraw (s : State) : Key :=
  match s.draws with
  | k :: _ => k
  | [] => Config.draw4 s.drawCount

/-- One draw consumed (R56, R165). -/
def State.consumeDraw (s : State) : State :=
  { s with draws := s.draws.tail, drawCount := s.drawCount + 1 }

/-- Raising error kind K, the state it leaves (R36, R203): `err_kind <- K`, `phase <- ERROR`; `hbuf`, `hcnt`, `hdr`, `hdr_valid`, `pbuf`
and `written` are unspecified, so they are free values (log 7), within the buffers' sizes of R20. `n` is the free values' index. -/
def Decoder.raise (p : Params) (n : Nat) (k : ErrKind) : Decoder :=
  { phase := .error
    errKind := some k
    hbuf := (Config.deadHbuf n).take 14
    hdr := Config.deadHdr n
    pbuf := (Config.deadPbuf n).take p.payloadCapacity }

/-- The frame-boundary reset (R34): `phase`, `hcnt`, `hdr_valid` and `written` at their initial values, `err_kind` unchanged. -/
def Decoder.frameReset (d : Decoder) : Decoder :=
  { d with phase := .awaitHeader, hbuf := [], hdr := none, pbuf := [] }

end Sys2Proof.Machine
end

