-- ==== Sys2Proof/Machine/Masker.lean ====
section
/-! DEFINITION. The masker: `applyMask` (R150) and the MASK command (R151). -/

namespace Sys2Proof.Machine

/-- `key[i % 4]`. -/
def keyLane (k : Key) (i : Nat) : Byte :=
  if i % 4 = 0 then k.k0 else if i % 4 = 1 then k.k1 else if i % 4 = 2 then k.k2 else k.k3

/-- Every byte XORed with its key byte, the key index counted from `i`. -/
def maskFrom (k : Key) : Nat → Bytes → Bytes
  | _, [] => []
  | i, b :: bs => (b ^^^ keyLane k i) :: maskFrom k (i + 1) bs

/-- `applyMask(bytes, key, offset)` (R150): a no-op without a key; "The key index i counts from `offset`, not from 0. Bytes below
`offset` are unchanged." Where `offset ≥ n` no byte changes. -/
def applyMask (bytes : Bytes) (key : Option Key) (offset : Nat) : Bytes :=
  match key with
  | none => bytes
  | some k => bytes.take offset ++ maskFrom k 0 (bytes.drop offset)

/-- MASK (R151). It reads and writes no block state. -/
def execMask (bytes : Bytes) (key : Option Key) (offset : Nat) (s : State) : Result :=
  .next (s.respond (.bytes (applyMask bytes key offset)))

end Sys2Proof.Machine
end

