-- ==== Sys2Proof/Machine/Encoder.lean ====
section
/-! DEFINITION. The encoder: `encodeFrame` (R161), BUILD (R160) and its six builders (R170 to R175). "Apart from `cfg_masking` it is
stateless. It never looks at the decoder's state." -/

namespace Sys2Proof.Machine

/-- Bytes 0 and 1, the extended length and the key: FIN = 1, RSV = 000, the shortest length form (R161, R162). -/
def buildHeader (op : BitVec 4) (len : Nat) (key : Option Key) : Bytes :=
  (0x80#8 ||| op.setWidth 8) ::
  ((if key.isSome then 0x80#8 else 0x00#8) ||| BitVec.ofNat 8 (buildLen7 len)) ::
  (beBytes (buildExt len) len ++ keyBytes key)

/-- `payloadOffset` of a built frame (R161). -/
def buildOffset (len : Nat) (key : Option Key) : Nat :=
  2 + buildExt len + (if key.isSome then 4 else 0)

/-- `encodeFrame(op, payload, masking)` (R161); `key` is the draw when masking, absent when not. -/
def encodeFrame (op : BitVec 4) (payload : Bytes) (key : Option Key) : Bytes :=
  applyMask (buildHeader op payload.length key ++ payload) key (buildOffset payload.length key)

/-- BUILD(op, payload) (R160): `Illegal` before construction; an overlong payload is an `Err` that draws nothing (R164); one draw when
masking (R165), none when not. It writes no block state. -/
def build (op : BitVec 4) (payload : Bytes) (s : State) : Result :=
  whenConstructed s <|
    if s.params.lenCeiling ≤ payload.length then .next (s.respond (.err .unsupportedLength))
    else if s.cfgMasking then
      .next (s.consumeDraw.respond (.frame (encodeFrame op payload (some s.nextDraw))))
    else .next (s.respond (.frame (encodeFrame op payload none)))

/-- BUILD.CONT: BUILD with op = 0 (R170). -/
def execBuildCont (payload : Bytes) (s : State) : Result := build 0#4 payload s

/-- BUILD.TEXT: BUILD with op = 1 (R171). -/
def execBuildText (payload : Bytes) (s : State) : Result := build 1#4 payload s

/-- BUILD.BINARY: BUILD with op = 2 (R172). -/
def execBuildBinary (payload : Bytes) (s : State) : Result := build 2#4 payload s

/-- BUILD.CLOSE: BUILD with op = 8 (R173). -/
def execBuildClose (payload : Bytes) (s : State) : Result := build 8#4 payload s

/-- BUILD.PING: BUILD with op = 9 (R174). -/
def execBuildPing (payload : Bytes) (s : State) : Result := build 9#4 payload s

/-- BUILD.PONG: BUILD with op = 10 (R175). -/
def execBuildPong (payload : Bytes) (s : State) : Result := build 10#4 payload s

end Sys2Proof.Machine
end

