-- ==== Sys2Proof/Machine/Facade.lean ====
section
/-! DEFINITION. The façade's own commands: INIT (R180) and STATUS (R181). -/

namespace Sys2Proof.Machine

/-- INIT (R180): legal in every state, before the first INIT and in ERROR; the only way out of ERROR (R204), so it is the return from
an exception. -/
def execInit (m : Bool) (s : State) : Result := .next ((s.construct m).respond .done)

/-- STATUS (R181): it only reads. -/
def execStatus (s : State) : Result := .next (s.respond (.status (statusWord s)))

end Sys2Proof.Machine
end

