-- ==== Sys2Proof/Machine/Decoder.lean ====
section
/-! DEFINITION. The decoder: the one-byte step `decodeByte` and the functions it calls (R101 to R113), FEED as its fold over the chunk
(R100, R114 to R116). -/

namespace Sys2Proof.Machine

/-- What one byte does: the decoder after it and the events it emitted, or the error it raised. -/
inductive ByteResult where
  | ok (d : Decoder) (events : List Event)
  | raised (k : ErrKind)
  deriving DecidableEq, Repr

/-- `headerByte(b)`: `b` goes to `hbuf[hcnt]` and `hcnt` moves on (R102). -/
def headerByte (b : Byte) (d : Decoder) : Decoder := { d with hbuf := d.hbuf ++ [b] }

/-- `checkBase(b0)`: RSV, then opcode, then FIN of a control frame; the first that fails is raised (R103 to R106). -/
def checkBase (b0 : Byte) : Option ErrKind :=
  if b0 &&& 0x70#8 ≠ 0#8 then some .rsvNonZero
  else if validOpcode (opcodeOf b0) = false then some .invalidOpcode
  else if controlOpcode (opcodeOf b0) = true ∧ b0 &&& 0x80#8 = 0#8 then some .expectedFinal
  else none

/-- `checkLen(len7, hbuf)`: only a 64-bit length can reach the ceiling (R108). -/
def checkLen (p : Params) (len7 : BitVec 7) (hbuf : Bytes) : Option ErrKind :=
  if len7 = 127#7 ∧ p.lenCeiling ≤ lenOf len7 hbuf then some .unsupportedLength else none

/-- `checkControlLen(op, L)`, on the resolved length (R109). -/
def checkControlLen (p : Params) (op : BitVec 4) (len : Nat) : Option ErrKind :=
  if p.enforceControlLen = true ∧ controlOpcode op = true ∧ 125 < len then some .controlFrameTooLong else none

/-- The two checks at the byte that completes the length field, in their order (R108, R109, R202 item 3). -/
def checkLength (p : Params) (b0 b1 : Byte) (hbuf : Bytes) : Option ErrKind :=
  match checkLen p (len7Of b1) hbuf with
  | some k => some k
  | none => checkControlLen p (opcodeOf b0) (lenOf (len7Of b1) hbuf)

/-- The header that `hbuf` holds when it is complete (R110): the key is the last four header bytes. -/
def headerOf (b0 b1 : Byte) (hbuf : Bytes) : Header :=
  { fin := finOf b0
    opcode := opcodeOf b0
    masked := maskedOf b1
    payloadLength := lenOf (len7Of b1) hbuf
    payloadOffset := hsize b1
    mask := if maskedOf b1 then keyOf (memRead hbuf (hsize b1 - 4) 4) else none }

/-- `finalize(b0, b1, hs)` (R110): the capacity check, then the scratch is cleared; an empty frame is emitted at once, any other waits
for its payload. -/
def finalize (p : Params) (b0 b1 : Byte) (d : Decoder) : ByteResult :=
  let h := headerOf b0 b1 d.hbuf
  if p.payloadCapacity < h.payloadLength then .raised .capacityExceeded
  else if h.payloadLength = 0 then .ok d.frameReset [.emit h.opcode h.fin []]
  else .ok { d with phase := .awaitPayload, hbuf := [], hdr := some h, pbuf := [] } []

/-- The rest of a byte in AWAIT_HEADER, after `headerByte` (R101): nothing before two bytes; `checkBase` at the second; the length
checks at the byte that completes the length field; `finalize` at the byte that completes the header. -/
def headerStep (p : Params) (d : Decoder) : ByteResult :=
  match d.hbuf with
  | b0 :: b1 :: _ =>
    match (if d.hcnt = 2 then checkBase b0 else none) with
    | some k => .raised k
    | none =>
      match (if d.hcnt = 2 + extSize (len7Of b1) then checkLength p b0 b1 d.hbuf else none) with
      | some k => .raised k
      | none => if d.hcnt < hsize b1 then .ok d [] else finalize p b0 b1 d
  | _ => .ok d []

/-- `complete()` (R112, R113): unmask the whole payload, emit, reset at the frame boundary. -/
def complete (h : Header) (d : Decoder) : ByteResult :=
  let p := memRead d.pbuf 0 h.payloadLength
  .ok d.frameReset [.emit h.opcode h.fin (if h.masked then applyMask p h.mask 0 else p)]

/-- `b` goes to `pbuf[written]` and `written` moves on (R111). -/
def storeByte (b : Byte) (d : Decoder) : Decoder := { d with pbuf := d.pbuf ++ [b] }

/-- `payloadByte(b)` (R111). In AWAIT_PAYLOAD a header is always held (R28); without one nothing happens (log 12). -/
def payloadByte (b : Byte) (d : Decoder) : ByteResult :=
  match d.hdr with
  | none => .ok d []
  | some h =>
    if (storeByte b d).written = h.payloadLength then complete h (storeByte b d) else .ok (storeByte b d) []

/-- `decodeByte(b)` (R101, R118). FEED never calls it in ERROR, where nothing happens and "the byte is not consumed" (R118). -/
def decodeByte (p : Params) (b : Byte) (d : Decoder) : ByteResult :=
  match d.phase with
  | .awaitHeader => headerStep p (headerByte b d)
  | .awaitPayload => payloadByte b d
  | .error => .ok d []

/-- The loop of FEED (R100): the events in stream order and the decoder after the last byte consumed. At a byte that raises, the
`Error` event is the last and the rest of the chunk is not consumed (R116, R203). -/
def feedBytes (p : Params) (n : Nat) : Bytes → Decoder → List Event × Decoder
  | [], d => ([], d)
  | b :: bs, d =>
    match decodeByte p b d with
    | .raised k => ([.error k], Decoder.raise p n k)
    | .ok d' evs => (evs ++ (feedBytes p n bs d').1, (feedBytes p n bs d').2)

/-- The bytes of a chunk delivered to the decoder (R100): `Illegal` before construction, a no-op when there are none (R115), the fault
`FeedAfterError` in ERROR (R114), else the loop. The raise counter moves on when the loop ends in ERROR. -/
def deliver (chunk : Bytes) (s : State) : Result :=
  whenConstructed s <|
    if chunk = [] then .next (s.respond (.events []))
    else if s.dec.phase = .error then .fault .feedAfterError
    else
      let r := feedBytes s.params s.raiseCount chunk s.dec
      .next { s with
        dec := r.2
        response := some (.events r.1)
        raiseCount := if r.2.phase = .error then s.raiseCount + 1 else s.raiseCount }

/-- FEED (R100). -/
def execFeed (chunk : Bytes) (s : State) : Result := deliver chunk s

end Sys2Proof.Machine
end

