-- ==== Sys2Proof/Machine/Wire.lean ====
section
/-! DEFINITION. The 16 wire instructions (R120 to R127). "Every valid opcode follows the same path through rules R101 to R113": the
operands of a wire instruction are its frame's bytes, and its meaning is those bytes delivered to the decoder, which is stepped
only by FEED (R6). -/

namespace Sys2Proof.Machine

/-- A frame delivered to the decoder, byte by byte. -/
def deliverFrame (op : BitVec 4) (f : Frame) (s : State) : Result := deliver (f.bytes op) s

/-- CONTINUATION (R120): both FIN values are legal; nothing checks that it follows an unfinished frame (R128). -/
def execContinuation (f : Frame) (s : State) : Result := deliverFrame 0#4 f s

/-- TEXT (R121): the payload is emitted as raw bytes; both FIN values are legal. -/
def execText (f : Frame) (s : State) : Result := deliverFrame 1#4 f s

/-- BINARY (R122): every length form is legal (R77). -/
def execBinary (f : Frame) (s : State) : Result := deliverFrame 2#4 f s

/-- Invalid opcode 0x3 (R127): `InvalidOpcode` at the second byte, or `RsvNonZero` where an RSV bit is set. -/
def execInvalid3 (f : Frame) (s : State) : Result := deliverFrame 3#4 f s

/-- Invalid opcode 0x4 (R127): `InvalidOpcode` at the second byte, or `RsvNonZero` where an RSV bit is set. -/
def execInvalid4 (f : Frame) (s : State) : Result := deliverFrame 4#4 f s

/-- Invalid opcode 0x5 (R127): `InvalidOpcode` at the second byte, or `RsvNonZero` where an RSV bit is set. -/
def execInvalid5 (f : Frame) (s : State) : Result := deliverFrame 5#4 f s

/-- Invalid opcode 0x6 (R127): `InvalidOpcode` at the second byte, or `RsvNonZero` where an RSV bit is set. -/
def execInvalid6 (f : Frame) (s : State) : Result := deliverFrame 6#4 f s

/-- Invalid opcode 0x7 (R127): `InvalidOpcode` at the second byte, or `RsvNonZero` where an RSV bit is set. -/
def execInvalid7 (f : Frame) (s : State) : Result := deliverFrame 7#4 f s

/-- CLOSE (R123): FIN = 0 raises `ExpectedFinal`; the payload is not parsed; the decoder goes on. -/
def execClose (f : Frame) (s : State) : Result := deliverFrame 8#4 f s

/-- PING (R124): as CLOSE; the block sends no PONG. -/
def execPing (f : Frame) (s : State) : Result := deliverFrame 9#4 f s

/-- PONG (R125): as CLOSE; an unsolicited one is emitted like any other. -/
def execPong (f : Frame) (s : State) : Result := deliverFrame 10#4 f s

/-- Invalid opcode 0xB (R127): `InvalidOpcode` at the second byte, or `RsvNonZero` where an RSV bit is set. -/
def execInvalidB (f : Frame) (s : State) : Result := deliverFrame 11#4 f s

/-- Invalid opcode 0xC (R127): `InvalidOpcode` at the second byte, or `RsvNonZero` where an RSV bit is set. -/
def execInvalidC (f : Frame) (s : State) : Result := deliverFrame 12#4 f s

/-- Invalid opcode 0xD (R127): `InvalidOpcode` at the second byte, or `RsvNonZero` where an RSV bit is set. -/
def execInvalidD (f : Frame) (s : State) : Result := deliverFrame 13#4 f s

/-- Invalid opcode 0xE (R127): `InvalidOpcode` at the second byte, or `RsvNonZero` where an RSV bit is set. -/
def execInvalidE (f : Frame) (s : State) : Result := deliverFrame 14#4 f s

/-- Invalid opcode 0xF (R127): `InvalidOpcode` at the second byte, or `RsvNonZero` where an RSV bit is set. -/
def execInvalidF (f : Frame) (s : State) : Result := deliverFrame 15#4 f s

end Sys2Proof.Machine
end

