-- ==== Sys2Proof/Machine/Dispatch.lean ====
section
/-! DEFINITION. One arm for each constructor of `Instr`: the meaning it calls. -/

namespace Sys2Proof.Machine

def exec (i : Instr) (s : State) : Host.Outcome State Fault Refusal :=
  match i with
  | .continuation f => Sys2Proof.Machine.execContinuation f s
  | .text f => Sys2Proof.Machine.execText f s
  | .binary f => Sys2Proof.Machine.execBinary f s
  | .invalid3 f => Sys2Proof.Machine.execInvalid3 f s
  | .invalid4 f => Sys2Proof.Machine.execInvalid4 f s
  | .invalid5 f => Sys2Proof.Machine.execInvalid5 f s
  | .invalid6 f => Sys2Proof.Machine.execInvalid6 f s
  | .invalid7 f => Sys2Proof.Machine.execInvalid7 f s
  | .close f => Sys2Proof.Machine.execClose f s
  | .ping f => Sys2Proof.Machine.execPing f s
  | .pong f => Sys2Proof.Machine.execPong f s
  | .invalidB f => Sys2Proof.Machine.execInvalidB f s
  | .invalidC f => Sys2Proof.Machine.execInvalidC f s
  | .invalidD f => Sys2Proof.Machine.execInvalidD f s
  | .invalidE f => Sys2Proof.Machine.execInvalidE f s
  | .invalidF f => Sys2Proof.Machine.execInvalidF f s
  | .init m => Sys2Proof.Machine.execInit m s
  | .feed chunk => Sys2Proof.Machine.execFeed chunk s
  | .buildCont p => Sys2Proof.Machine.execBuildCont p s
  | .buildText p => Sys2Proof.Machine.execBuildText p s
  | .buildBinary p => Sys2Proof.Machine.execBuildBinary p s
  | .buildClose p => Sys2Proof.Machine.execBuildClose p s
  | .buildPing p => Sys2Proof.Machine.execBuildPing p s
  | .buildPong p => Sys2Proof.Machine.execBuildPong p s
  | .mask bytes key offset => Sys2Proof.Machine.execMask bytes key offset s
  | .status => Sys2Proof.Machine.execStatus s

end Sys2Proof.Machine
end

