-- ==== Sys2Proof/Machine/Fetch.lean ====
section
/-! DEFINITION. What a step does around an instruction's meaning: which instruction the next command is, the command taken from the
pending ones, and its (command, response) pair added to the observation. Also where an instruction is placed so that the next step
runs it. -/

namespace Sys2Proof.Machine

/-- Whether the next byte fed is the first byte of a frame: constructed, AWAIT_HEADER, `hcnt = 0` (R233). -/
def State.atFrameStart (s : State) : Bool :=
  s.constructed && s.dec.phase == .awaitHeader && s.dec.hbuf.isEmpty

/-- The instruction a command is (log 9). A FEED whose chunk is one frame, from its first byte, is that wire instruction; any other
command is what its word says. A FEED of those bytes does the same (`exec_wire_eq_feed` in Laws). -/
def fetch (s : State) (c : Command) : Except Reject Instr :=
  match decodeCommand c with
  | .ok (.feed chunk) =>
    if s.atFrameStart then
      match decode (.wire chunk) with
      | .ok i => .ok i
      | .error _ => .ok (.feed chunk)
    else .ok (.feed chunk)
  | r => r

/-- The observation of one command (R13): the command and the response it got. -/
def observe (c : Command) : Result → Result
  | .next s =>
    match s.response with
    | some r => .next { s with trace := s.trace ++ [(c, r)] }
    | none => .next s
  | .fault e => .fault e
  | .refused e => .refused e

/-- The host has issued no command: the block waits, and nothing changes (R13: "the block has no halt state"; log 1). -/
def idle (s : State) : Result := .next s

/-- The FEED of a chunk, as a command. -/
def feedCommand (chunk : Bytes) : Command := dataCommand 2#4 0#4 false chunk

/-- Whether a command word's class runs only once the instance is constructed: FEED and BUILD (R182 item 2). -/
def needsConstruction (w : Word) : Bool :=
  w.extractLsb' 12 4 == 2#4 || w.extractLsb' 12 4 == 3#4

/-- A command issued so that the next step accepts it. -/
def State.issue (s : State) (c : Command) : State := { s with pending := c :: s.pending }

/-- An instruction numbered as spec/opcode_table.json numbers it, placed so that the next step runs it (log 10). A wire instruction
runs when its bytes are fed to a constructed instance at the start of a frame; FEED and BUILD run on a constructed instance. -/
def State.place (s : State) (nbits w : Nat) : State :=
  if nbits = 8 then
    { s with constructed := true, dec := Decoder.initial }.issue (feedCommand (tableFrame w))
  else
    { s with constructed := s.constructed || needsConstruction (BitVec.ofNat 16 w) }.issue (tableCommand w)

end Sys2Proof.Machine
end

