-- ==== Sys2Proof/Machine/Step.lean ====
section
/-! DEFINITION. One step is one command (R12): the oldest pending command is accepted, runs to completion, and its response joins the
observation (R55, R57). -/

namespace Sys2Proof.Machine

/-- One step. A command that is no instruction is answered `Illegal` and changes no state (R182). -/
def step (s : State) : Host.Outcome State Fault Refusal :=
  match s.pending with
  | [] => idle s
  | c :: rest =>
    match fetch s c with
    | .ok i => observe c (exec i { s with pending := rest })
    | .error _ => observe c (illegal { s with pending := rest })

/-- `s` with an instruction placed where `step` takes its next one. -/
def State.withFetchWord (s : State) (nbits w : Nat) : State := s.place nbits w

end Sys2Proof.Machine
end

