-- ==== Sys2Proof/Safety.lean ====
section
/-! DEFINITION. What the claims are stated in: the invariant of the decoder's state (R23, R27 to R30), the hypotheses on a frame, the
host's duty, and a stream fed in several chunks. -/

namespace Sys2Proof

open Machine

/-- The frame invariants 2 to 8 of R30, of a finalized header. -/
structure Header.Ok (p : Params) (h : Header) : Prop where
  /-- Item 2. -/
  opcode   : validOpcode h.opcode = true
  /-- Item 3. -/
  final    : h.opcode ∉ [0#4, 1#4, 2#4] → h.fin = true
  /-- Item 4. -/
  ceiling  : h.payloadLength < p.lenCeiling
  /-- Item 5. -/
  offset   : ∃ e ∈ [0, 2, 8], h.payloadOffset = 2 + e + (if h.masked then 4 else 0)
  /-- Item 6: the key is held iff the frame is masked. -/
  key      : h.mask.isSome = h.masked
  /-- Item 7. -/
  capacity : h.payloadLength ≤ p.payloadCapacity
  /-- Item 8. -/
  control  : p.enforceControlLen = true → controlOpcode h.opcode = true → h.payloadLength ≤ 125

/-- The RSV bits of a frame are zero, as R76 asks. -/
def Frame.rsvClear (f : Frame) : Prop := f.rsv1 = false ∧ f.rsv2 = false ∧ f.rsv3 = false

/-- The announced length passes every check on it, for an opcode: below the ceiling (R108), within the control limit where it is
enforced (R109), within the capacity (R110). -/
def Frame.lengthOk (p : Params) (op : BitVec 4) (f : Frame) : Prop :=
  f.len.value < p.lenCeiling ∧
    (p.enforceControlLen = true → controlOpcode op = true → f.len.value ≤ 125) ∧
    f.len.value ≤ p.payloadCapacity

/-- The payload a frame carries: its bytes XORed with the key, if it has one (R51, R112). -/
def Frame.clear (f : Frame) : Bytes :=
  match f.key with
  | none => f.payload
  | some k => f.payload.mapIdx (fun i b => b ^^^ keyLane k i)

end Sys2Proof

namespace Sys2Proof.Machine

/-- The scratch in AWAIT_HEADER: shorter than the header it is part of (R27), with every check passed whose bytes have arrived (R103,
R108, R109). Item 1 of R30 is among them: the RSV bits of byte 0 are zero. -/
def ScratchOk (p : Params) : Bytes → Prop
  | b0 :: b1 :: tail =>
    2 + tail.length < hsize b1 ∧ checkBase b0 = none ∧
      (extSize (len7Of b1) ≤ tail.length → checkLength p b0 b1 (b0 :: b1 :: tail) = none)
  | _ => True

/-- The invariant of the decoder. In ERROR it leaves the header, the payload bytes and the scratch's contents free, as R36 does (log 7). -/
structure Decoder.Inv (p : Params) (d : Decoder) : Prop where
  /-- "`phase == ERROR` holds exactly when `err_kind != 0`" (R23). -/
  error   : d.phase = .error ↔ d.errKind ≠ none
  /-- `hcnt` is 0..14 (R20). -/
  scratch : d.hcnt ≤ 14
  /-- In AWAIT_HEADER no header is held (R28) and the scratch is a proper part of one (R27). -/
  header  : d.phase = .awaitHeader → d.hdrValid = false ∧ ScratchOk p d.hbuf
  /-- In AWAIT_PAYLOAD a finalized header is held (R28, R30), the scratch is clear, and `0 ≤ written < hdr.payloadLength` (R29). -/
  payload : d.phase = .awaitPayload → d.hcnt = 0 ∧ ∃ h, d.hdr = some h ∧ h.Ok p ∧ d.written < h.payloadLength

/-- The invariant of the machine. -/
structure State.Inv (s : State) : Prop where
  legal   : s.params.Legal
  decoder : s.dec.Inv s.params

/-- The instance is constructed and at the start of a frame, as INIT and every emission leave it (R33, R34). -/
def State.Fresh (s : State) : Prop := s.constructed = true ∧ s.dec = Decoder.initial

/-- The events of a FEED response; none for any other. -/
def Response.eventList : Response → List Event
  | .events l => l
  | _ => []

/-- The wire instructions with a frame, each with its opcode value (R74). -/
def wireRows (f : Frame) : List (BitVec 4 × Instr) :=
  [(0#4, .continuation f), (1#4, .text f), (2#4, .binary f), (3#4, .invalid3 f), (4#4, .invalid4 f), (5#4, .invalid5 f),
   (6#4, .invalid6 f), (7#4, .invalid7 f), (8#4, .close f), (9#4, .ping f), (10#4, .pong f), (11#4, .invalidB f),
   (12#4, .invalidC f), (13#4, .invalidD f), (14#4, .invalidE f), (15#4, .invalidF f)]

/-- The six of valid opcode (R74). -/
def validRows (f : Frame) : List (BitVec 4 × Instr) :=
  [(0#4, .continuation f), (1#4, .text f), (2#4, .binary f), (8#4, .close f), (9#4, .ping f), (10#4, .pong f)]

/-- The three control opcodes (R75). -/
def controlRows (f : Frame) : List (BitVec 4 × Instr) := [(8#4, .close f), (9#4, .ping f), (10#4, .pong f)]

/-- The ten of invalid opcode (R127). -/
def invalidRows (f : Frame) : List (BitVec 4 × Instr) :=
  [(3#4, .invalid3 f), (4#4, .invalid4 f), (5#4, .invalid5 f), (6#4, .invalid6 f), (7#4, .invalid7 f), (11#4, .invalidB f),
   (12#4, .invalidC f), (13#4, .invalidD f), (14#4, .invalidE f), (15#4, .invalidF f)]

/-- The six builders with a payload, each with its opcode value (R170 to R175). -/
def buildRows (p : Bytes) : List (BitVec 4 × Instr) :=
  [(0#4, .buildCont p), (1#4, .buildText p), (2#4, .buildBinary p), (8#4, .buildClose p), (9#4, .buildPing p),
   (10#4, .buildPong p)]

/-- `i` raises error kind `k` and emits nothing: the next state is in ERROR with `err_kind` = k, the response is the one `Error` event,
and outside the decoder and the index of the free values nothing else changes (R203, R36). -/
def Raises (k : ErrKind) (i : Instr) (s : State) : Prop :=
  ∃ t, exec i s = .next t ∧ t.dec.phase = .error ∧ t.dec.errKind = some k ∧
    t = { s with dec := t.dec, response := some (.events [.error k]), raiseCount := s.raiseCount + 1 }

/-- Chunks fed in order, up to and including the FEED that raises (R117): the events of all of them, and the state after the last.
Absent where a FEED gives no next state. -/
def feedChunks : List Bytes → State → Option (List Event × State)
  | [], s => some ([], s)
  | c :: cs, s =>
    match exec (.feed c) s with
    | .next t =>
      let evs := (t.response.map Response.eventList).getD []
      if t.dec.phase = .error then some (evs, t)
      else (feedChunks cs t).map (fun r => (evs ++ r.1, r.2))
    | .fault _ => none
    | .refused _ => none

/-- The host's duty of R210 and R234: no non-empty FEED in ERROR. -/
def Conforming (s : State) (c : Command) : Prop :=
  ¬ (s.constructed = true ∧ s.dec.phase = .error ∧ c.word = 0x2000#16 ∧ c.data ≠ [])

end Sys2Proof.Machine
end

