-- ==== Sys2Proof/Certificates/Slice0/Obligations.lean ====
section
/-! DEFINITION. The statements for the provers. Each docstring names the rules of spec/ it rests on. -/

open Sys2Proof Sys2Proof.Machine

/-! ### Encodings -/

/-- R74, R81: words written out from the opcode table decode to the instruction they stand for. -/
def Obligations.TableWordsDecode : Prop :=
  decodeTableWord 8 0x81 = some (.text ⟨true, false, false, false, .short 0#7, none, []⟩) ∧
  decodeTableWord 8 0x73 = some (.invalid3 ⟨false, true, true, true, .short 0#7, none, []⟩) ∧
  decodeTableWord 8 0x89 = some (.ping ⟨true, false, false, false, .short 0#7, none, []⟩) ∧
  decodeTableWord 16 0x1001 = some (.init true) ∧
  decodeTableWord 16 0x2000 = some (.feed []) ∧
  decodeTableWord 16 0x3A00 = some (.buildPong []) ∧
  decodeTableWord 16 0x3300 = none ∧
  decodeTableWord 16 0x4000 = some (.mask [] none 0) ∧
  decodeTableWord 16 0x5000 = some .status ∧
  decodeTableWord 16 0x0000 = none ∧
  decode (.wire [0x82#8, 0xFE#8, 0x01#8, 0x02#8, 0x37#8, 0xFA#8, 0x21#8, 0x3D#8, 0x7F#8]) =
    .ok (.binary ⟨true, false, false, false, .ext16 0x0102#16, some ⟨0x37#8, 0xFA#8, 0x21#8, 0x3D#8⟩, [0x7F#8]⟩) ∧
  decode (.wire [0x08#8, 0x7F#8, 0x01#8, 0x02#8, 0x03#8, 0x04#8, 0x05#8, 0x06#8, 0x07#8, 0x08#8]) =
    .ok (.close ⟨false, false, false, false, .ext64 0x0102030405060708#64, none, []⟩)

/-- R70 to R74, R80, R81: decoding what the encoder writes gives the instruction back. -/
def Obligations.DecodeOfEncodeIsSame : Prop :=
  ∀ i : Instr, i.wf = true → decode (encode i) = .ok i

/-- R70 to R74, R79: bytes that decode to a wire instruction are exactly that instruction's encoding. -/
def Obligations.EncodeOfDecodedFrameIsSame : Prop :=
  ∀ (bytes : Bytes) (i : Instr), decode (.wire bytes) = .ok i → i.wf = true ∧ encode i = .wire bytes

/-- R81: the words that are commands are the six BUILD words and the seven others listed there. -/
def Obligations.CommandWordsAreTheListed : Prop :=
  ∀ c : Command, (∃ i, decodeCommand c = .ok i) ↔
    c.word ∈ [0x3000#16, 0x3100#16, 0x3200#16, 0x3800#16, 0x3900#16, 0x3A00#16,
      0x1000#16, 0x1001#16, 0x2000#16, 0x4000#16, 0x4001#16, 0x5000#16]

/-- R82: a command word that meets any of the five items gets `Illegal`, and no state changes but the command's being taken and
observed. -/
def Obligations.IllegalWordsAnswerIllegal : Prop :=
  ∀ (s : State) (c : Command) (rest : List Command), s.pending = c :: rest →
    ((c.word.extractLsb' 12 4).toNat = 0 ∨ 6 ≤ (c.word.extractLsb' 12 4).toNat ∨
      c.word.extractLsb' 1 7 ≠ 0#7 ∨
      (c.word.extractLsb' 12 4 ≠ 3#4 ∧ c.word.extractLsb' 8 4 ≠ 0#4) ∨
      (c.word.extractLsb' 12 4 = 3#4 ∧ c.word.extractLsb' 8 4 ∉ [0#4, 1#4, 2#4, 8#4, 9#4, 10#4]) ∨
      (c.word.getLsbD 0 = true ∧ c.word.extractLsb' 12 4 ∈ [2#4, 3#4, 5#4])) →
    step s = .next { s with pending := rest, response := some .illegal, trace := s.trace ++ [(c, .illegal)] }

/-! ### The step -/

/-- R12, R55: a step runs the instruction its command decodes to, with the command taken from the pending ones before and its
response observed after. The wire instructions come by FEED: at the start of a frame a FEED of one frame's bytes is that
instruction, and running it is running the FEED. Without a command nothing changes (log 1). -/
def Obligations.StepRunsTheDecodedInstruction : Prop :=
  (∀ (s : State) (c : Command) (rest : List Command) (i : Instr), s.pending = c :: rest → decodeCommand c = .ok i →
    step s = observe c (exec i { s with pending := rest })) ∧
  (∀ (s : State) (c : Command) (rest : List Command) (chunk : Bytes) (i : Instr), s.pending = c :: rest →
    decodeCommand c = .ok (.feed chunk) → decode (.wire chunk) = .ok i → s.atFrameStart = true →
    fetch s c = .ok i ∧ step s = observe c (exec i { s with pending := rest })) ∧
  (∀ s : State, s.pending = [] → step s = .next s)

/-- R120 to R127: a wire instruction does what FEED does with its bytes. -/
def Obligations.WireInstructionIsFeedOfItsBytes : Prop :=
  ∀ (i : Instr) (bytes : Bytes) (s : State), encode i = .wire bytes → exec i s = exec (.feed bytes) s

/-- R12, R13, R57: a step takes the oldest command and answers it once: the response is added to the observation with its command.
The one exception is the fault of R114. -/
def Obligations.StepAnswersOneCommand : Prop :=
  ∀ (s : State) (c : Command) (rest : List Command), s.pending = c :: rest →
    step s = .fault .feedAfterError ∨
    ∃ t r, step s = .next t ∧ t.pending = rest ∧ t.response = some r ∧ t.trace = s.trace ++ [(c, r)]

/-- R114, R201, R211: the machine stops exactly on a command that breaks the host's duty, a non-empty FEED in ERROR, with
`FeedAfterError`; it never refuses. -/
def Obligations.StopsOnlyOnFeedAfterError : Prop :=
  ∀ (s : State) (c : Command) (rest : List Command), s.pending = c :: rest →
    ((∃ t, step s = .next t) ↔ Conforming s c) ∧ (step s = .fault .feedAfterError ↔ ¬ Conforming s c)

/-! ### The façade -/

/-- R33: every element at its listed value, whatever state it was in; nothing else changes. -/
def Obligations.InitGivesTheInitialState : Prop :=
  ∀ (m : Bool) (s : State), ∃ t, exec (.init m) s = .next t ∧
    t.constructed = true ∧ t.cfgMasking = m ∧ t.dec.phase = .awaitHeader ∧ errCode t.dec.errKind = 0#4 ∧
    t.dec.hcnt = 0 ∧ t.dec.hdrValid = false ∧ t.dec.written = 0 ∧
    t = { s with constructed := true, cfgMasking := m, dec := t.dec, response := some .done }

/-- R56, R180: INIT issued twice leaves the same state as once. -/
def Obligations.InitTwiceIsInitOnce : Prop :=
  ∀ (m : Bool) (s t : State), exec (.init m) s = .next t → exec (.init m) t = .next t

/-- R31: the fields of the status word, with the numbers of the phases (R26) and of the error kinds (R200) written out; STATUS changes
nothing but the response. -/
def Obligations.StatusWordLayout : Prop :=
  ∀ s : State, ∃ w, exec .status s = .next { s with response := some (.status w) } ∧
    (s.constructed = false → w = 0x0000#16) ∧
    (s.constructed = true →
      w.extractLsb' 0 2 = (match s.dec.phase with
        | .awaitHeader => 0#2
        | .awaitPayload => 1#2
        | .error => 2#2) ∧
      w.getLsbD 2 = s.cfgMasking ∧ w.getLsbD 3 = true ∧
      w.extractLsb' 4 4 = (match s.dec.errKind with
        | none => 0#4
        | some .rsvNonZero => 1#4
        | some .invalidOpcode => 2#4
        | some .expectedFinal => 3#4
        | some .unsupportedLength => 4#4
        | some .controlFrameTooLong => 5#4
        | some .capacityExceeded => 6#4) ∧
      w.extractLsb' 8 8 = 0#8)

/-- R25: `constructed` is 0 at power-on, 1 after INIT, and never cleared; while it is 0, FEED, with the wire instructions it
carries, and BUILD are answered `Illegal`. -/
def Obligations.ConstructedIsSetByInitAndKept : Prop :=
  State.reset.constructed = false ∧
  (∀ m s t, exec (.init m) s = .next t → t.constructed = true) ∧
  (∀ s t, step s = .next t → s.constructed = true → t.constructed = true) ∧
  (∀ (s t : State), step s = .next t → s.constructed = false → t.constructed = true →
    ∃ c rest m, s.pending = c :: rest ∧ decodeCommand c = .ok (.init m)) ∧
  (∀ (s : State) (p : Bytes) (f : Frame), s.constructed = false →
    exec (.feed p) s = .next { s with response := some .illegal } ∧
    (∀ r ∈ wireRows f, exec r.2 s = .next { s with response := some .illegal }) ∧
    (∀ r ∈ buildRows p, exec r.2 s = .next { s with response := some .illegal }))

/-- R35: before the first INIT no command reads the elements that are unspecified then: two instances not yet constructed that
differ in them answer every instruction alike. -/
def Obligations.UnspecifiedPowerOnStateIsNotRead : Prop :=
  ∀ (i : Instr) (s : State) (m : Bool) (d : Decoder), s.constructed = false →
    ∃ t u, exec i s = .next t ∧ exec i { s with cfgMasking := m, dec := d } = .next u ∧ t.response = u.response ∧
      t.constructed = u.constructed ∧ t.trace = u.trace

/-! ### What instructions leave unchanged -/

/-- R56, R166: BUILD, MASK, STATUS and an empty FEED leave every element of the instance unchanged; BUILD alone can make a draw. -/
def Obligations.OtherCommandsKeepTheInstance : Prop :=
  ∀ (s t : State) (p : Bytes) (k : Option Key) (n : Nat),
    (∀ r ∈ buildRows p, exec r.2 s = .next t →
      t = { s with response := t.response, draws := t.draws, drawCount := t.drawCount }) ∧
    (exec (.mask p k n) s = .next t → t = { s with response := t.response }) ∧
    (exec .status s = .next t → t = { s with response := t.response }) ∧
    (exec (.feed []) s = .next t → t = { s with response := t.response })

/-- R24, R25, R56: FEED and the wire instructions change the decoder, the response and the index of the free values alone. -/
def Obligations.FeedKeepsAllButTheDecoder : Prop :=
  ∀ (s t : State) (chunk : Bytes) (f : Frame),
    (exec (.feed chunk) s = .next t → t = { s with dec := t.dec, response := t.response, raiseCount := t.raiseCount }) ∧
    (∀ r ∈ wireRows f, exec r.2 s = .next t →
      t = { s with dec := t.dec, response := t.response, raiseCount := t.raiseCount })

/-- R7, R8, R9, R10: no step changes a parameter; `cfg_masking` changes by INIT alone. -/
def Obligations.ParametersAndMaskingAreKept : Prop :=
  ∀ (s t : State), step s = .next t → t.params = s.params ∧
    (t.cfgMasking = s.cfgMasking ∨ ∃ c rest m, s.pending = c :: rest ∧ decodeCommand c = .ok (.init m) ∧ t.cfgMasking = m)

/-- R11, R56, R165: a step makes one draw, the next answer of the random source, if its command is a BUILD that masks and does not fail,
and none otherwise. -/
def Obligations.OnlyMaskedBuildDraws : Prop :=
  ∀ (s t : State) (c : Command) (rest : List Command), s.pending = c :: rest → step s = .next t →
    ((∃ r ∈ buildRows c.data, decodeCommand c = .ok r.2) ∧ s.constructed = true ∧ s.cfgMasking = true ∧
        c.data.length < s.params.lenCeiling ∧ t.drawCount = s.drawCount + 1 ∧ t.draws = s.draws.tail) ∨
    (¬ ((∃ r ∈ buildRows c.data, decodeCommand c = .ok r.2) ∧ s.constructed = true ∧ s.cfgMasking = true ∧
        c.data.length < s.params.lenCeiling) ∧ t.drawCount = s.drawCount ∧ t.draws = s.draws)

/-! ### The masker -/

/-- R153: MASK completes in every state, before INIT and in ERROR too; its result has the operand's length, and each of its bytes is the
operand's byte, XORed from the offset on with the key byte of its lane. -/
def Obligations.MaskLaneLaw : Prop :=
  ∀ (bytes : Bytes) (key : Option Key) (offset : Nat) (s : State),
    ∃ out, exec (.mask bytes key offset) s = .next { s with response := some (.bytes out) } ∧
      out.length = bytes.length ∧
      ∀ (t : Nat) (h : t < bytes.length) (h' : t < out.length),
        out[t] = (match key with
          | none => bytes[t]
          | some k =>
            if t < offset then bytes[t]
            else bytes[t] ^^^ [k.k0, k.k1, k.k2, k.k3].getD ((t - offset) % 4) 0#8)

/-- R152: masking twice with one key and offset gives the bytes back. -/
def Obligations.MaskIsAnInvolution : Prop :=
  ∀ (bytes : Bytes) (k : Key) (offset : Nat) (s t : State) (out : Bytes),
    exec (.mask bytes (some k) offset) s = .next t → t.response = some (.bytes out) →
    exec (.mask out (some k) offset) t = .next { t with response := some (.bytes bytes) }

/-- R154: masking from an offset is masking the bytes from there on by themselves, with the bytes before it kept. -/
def Obligations.MaskShiftLaw : Prop :=
  ∀ (bytes : Bytes) (key : Option Key) (offset : Nat) (s : State), offset ≤ bytes.length →
    ∃ out, exec (.mask (bytes.drop offset) key 0) s = .next { s with response := some (.bytes out) } ∧
      exec (.mask bytes key offset) s = .next { s with response := some (.bytes (bytes.take offset ++ out)) }

/-! ### The encoder -/

/-- R161, R162, R165: an unmasked BUILD gives the frame with FIN = 1, RSV = 0 and the shortest length form, for each of the six opcodes,
and changes nothing but the response. -/
def Obligations.BuildUnmaskedFrame : Prop :=
  ∀ (s : State) (p : Bytes), s.constructed = true → s.cfgMasking = false → p.length < s.params.lenCeiling →
    ∀ r ∈ buildRows p, exec r.2 s = .next { s with response := some (.frame (
      (if p.length ≤ 125 then [0x80#8 ||| r.1.setWidth 8, BitVec.ofNat 8 p.length]
       else if p.length ≤ 65535 then
         [0x80#8 ||| r.1.setWidth 8, 126#8, BitVec.ofNat 8 (p.length / 2 ^ 8), BitVec.ofNat 8 p.length]
       else
         [0x80#8 ||| r.1.setWidth 8, 127#8, BitVec.ofNat 8 (p.length / 2 ^ 56), BitVec.ofNat 8 (p.length / 2 ^ 48),
          BitVec.ofNat 8 (p.length / 2 ^ 40), BitVec.ofNat 8 (p.length / 2 ^ 32), BitVec.ofNat 8 (p.length / 2 ^ 24),
          BitVec.ofNat 8 (p.length / 2 ^ 16), BitVec.ofNat 8 (p.length / 2 ^ 8), BitVec.ofNat 8 p.length]) ++ p)) }

/-- R161, R162, R165: a masked BUILD makes one draw and gives the frame with the MASK bit, the drawn key in draw order after the length, and
each payload byte XORed with its key byte. -/
def Obligations.BuildMaskedFrame : Prop :=
  ∀ (s : State) (p : Bytes), s.constructed = true → s.cfgMasking = true → p.length < s.params.lenCeiling →
    ∀ r ∈ buildRows p, exec r.2 s = .next { s with
      draws := s.draws.tail
      drawCount := s.drawCount + 1
      response := some (.frame (
        (if p.length ≤ 125 then [0x80#8 ||| r.1.setWidth 8, BitVec.ofNat 8 (128 + p.length)]
         else if p.length ≤ 65535 then
           [0x80#8 ||| r.1.setWidth 8, 254#8, BitVec.ofNat 8 (p.length / 2 ^ 8), BitVec.ofNat 8 p.length]
         else
           [0x80#8 ||| r.1.setWidth 8, 255#8, BitVec.ofNat 8 (p.length / 2 ^ 56), BitVec.ofNat 8 (p.length / 2 ^ 48),
            BitVec.ofNat 8 (p.length / 2 ^ 40), BitVec.ofNat 8 (p.length / 2 ^ 32), BitVec.ofNat 8 (p.length / 2 ^ 24),
            BitVec.ofNat 8 (p.length / 2 ^ 16), BitVec.ofNat 8 (p.length / 2 ^ 8), BitVec.ofNat 8 p.length]) ++
        [s.nextDraw.k0, s.nextDraw.k1, s.nextDraw.k2, s.nextDraw.k3] ++
        p.mapIdx (fun i b => b ^^^ [s.nextDraw.k0, s.nextDraw.k1, s.nextDraw.k2, s.nextDraw.k3].getD (i % 4) 0#8))) }

/-- R164: a payload at or above the ceiling is answered `Err(UnsupportedLength)`: no frame, no draw, no state changed. -/
def Obligations.BuildOverlongIsErr : Prop :=
  ∀ (s : State) (p : Bytes), s.constructed = true → s.params.lenCeiling ≤ p.length →
    ∀ r ∈ buildRows p, exec r.2 s = .next { s with response := some (.err .unsupportedLength) }

/-- R163: the size of a built frame. -/
def Obligations.BuiltFrameSize : Prop :=
  ∀ (s t : State) (p bytes : Bytes), ∀ r ∈ buildRows p, exec r.2 s = .next t → t.response = some (.frame bytes) →
    bytes.length = 2 + (if p.length ≤ 125 then 0 else if p.length ≤ 65535 then 2 else 8) + (if s.cfgMasking then 4 else 0) + p.length ∧
    2 + p.length ≤ bytes.length ∧ bytes.length ≤ 14 + p.length

/-- R166: BUILD does not depend on the decoder: whatever the decoder's state, ERROR included, it completes, and two instances that differ
in that state alone get the same response and make the same draws. -/
def Obligations.BuildIgnoresTheDecoder : Prop :=
  ∀ (s : State) (d : Decoder) (p : Bytes), ∀ r ∈ buildRows p,
    ∃ t, exec r.2 s = .next t ∧ t.dec = s.dec ∧ exec r.2 { s with dec := d } = .next { t with dec := d }

/-! ### The decoder: errors -/

/-- R104, R202: a frame with any RSV bit set raises `RsvNonZero`, whatever its opcode and FIN, at its second byte. -/
def Obligations.RsvBitsRaise : Prop :=
  ∀ (s : State) (f : Frame), s.Fresh → ¬ f.rsvClear →
    ∀ r ∈ wireRows f, Raises .rsvNonZero r.2 s ∧ exec r.2 s = exec (.feed [f.byte0 r.1, f.byte1]) s

/-- R105, R127, R202: with RSV = 0 each of the ten invalid opcodes raises `InvalidOpcode`, whatever FIN, at the second byte: no byte after it
is consumed. -/
def Obligations.InvalidOpcodesRaise : Prop :=
  ∀ (s : State) (f : Frame), s.Fresh → f.rsvClear →
    ∀ r ∈ invalidRows f, Raises .invalidOpcode r.2 s ∧ exec r.2 s = exec (.feed [f.byte0 r.1, f.byte1]) s

/-- R106: a control frame with FIN = 0 raises `ExpectedFinal` at its second byte. -/
def Obligations.ControlWithoutFinRaises : Prop :=
  ∀ (s : State) (f : Frame), s.Fresh → f.rsvClear → f.fin = false →
    ∀ r ∈ controlRows f, Raises .expectedFinal r.2 s ∧ exec r.2 s = exec (.feed [f.byte0 r.1, f.byte1]) s

/-- R78, R108: a 64-bit length at or above the ceiling raises `UnsupportedLength` at the frame's tenth byte, before any key byte, and not
earlier. -/
def Obligations.OverlongFrameRaises : Prop :=
  ∀ (s : State) (f : Frame) (n : BitVec 64), s.Fresh → f.rsvClear → f.len = .ext64 n → s.params.lenCeiling ≤ n.toNat →
    ∀ r ∈ validRows f, (controlOpcode r.1 = true → f.fin = true) →
      Raises .unsupportedLength r.2 s ∧ exec r.2 s = exec (.feed ((f.bytes r.1).take 10)) s ∧
      ∃ t, exec (.feed ((f.bytes r.1).take 9)) s = .next t ∧ t.response = some (.events []) ∧ t.dec.phase = .awaitHeader

/-- R109, R200: where the limit is enforced, a control frame whose resolved length is above 125 and below the ceiling raises
`ControlFrameTooLong` at the byte that completes its length field (the fourth or the tenth), before any key byte, and not earlier. -/
def Obligations.LongControlFrameRaises : Prop :=
  ∀ (s : State) (f : Frame), s.Fresh → s.params.enforceControlLen = true → f.wf = true → f.rsvClear → f.fin = true →
    125 < f.len.value → f.len.value < s.params.lenCeiling →
    ∀ r ∈ controlRows f,
      Raises .controlFrameTooLong r.2 s ∧ exec r.2 s = exec (.feed ((f.bytes r.1).take (2 + extSize f.len.len7))) s ∧
      ∃ t, exec (.feed ((f.bytes r.1).take (1 + extSize f.len.len7))) s = .next t ∧ t.response = some (.events []) ∧
        t.dec.phase = .awaitHeader

/-- R9, R110, R202: a frame whose header passes every earlier check and whose length exceeds the capacity raises `CapacityExceeded` at its last
header byte, and not earlier. -/
def Obligations.OverCapacityFrameRaises : Prop :=
  ∀ (s : State) (f : Frame), s.Fresh → f.wf = true → f.rsvClear → f.len.value < s.params.lenCeiling →
    s.params.payloadCapacity < f.len.value →
    ∀ r ∈ validRows f, (controlOpcode r.1 = true → f.fin = true) →
      (s.params.enforceControlLen = true → controlOpcode r.1 = true → f.len.value ≤ 125) →
      Raises .capacityExceeded r.2 s ∧ exec r.2 s = exec (.feed ((f.bytes r.1).take (hsize f.byte1))) s ∧
      ∃ t, exec (.feed ((f.bytes r.1).take (hsize f.byte1 - 1))) s = .next t ∧ t.response = some (.events []) ∧
        t.dec.phase = .awaitHeader

/-- R23, R83, R203: a FEED's response holds at most one `Error`, the last event; it holds one exactly when the FEED ends in ERROR, and then
`err_kind` is its kind. Otherwise `err_kind` is as before. -/
def Obligations.ErrorEventIsLastAndOnly : Prop :=
  ∀ (s t : State) (chunk : Bytes), s.constructed = true → s.dec.phase ≠ .error → exec (.feed chunk) s = .next t →
    ∃ emits, (∀ e ∈ emits, ∃ op fin p, e = .emit op fin p) ∧
      ((t.dec.phase ≠ .error ∧ t.response = some (.events emits) ∧ t.dec.errKind = s.dec.errKind ∧ t.raiseCount = s.raiseCount) ∨
       (∃ k, t.dec.phase = .error ∧ t.response = some (.events (emits ++ [.error k])) ∧ t.dec.errKind = some k ∧
         t.raiseCount = s.raiseCount + 1))

/-- R116: when a byte raises, FEED stops: the rest of the chunk has no effect. -/
def Obligations.BytesAfterAnErrorAreNotConsumed : Prop :=
  ∀ (s t : State) (c1 c2 : Bytes), s.constructed = true → s.dec.phase ≠ .error → exec (.feed c1) s = .next t →
    t.dec.phase = .error → exec (.feed (c1 ++ c2)) s = .next t

/-- R204: ERROR has no return but INIT: every other instruction that gives a next state leaves the decoder, `err_kind` included, as it is;
INIT starts a new instance. -/
def Obligations.OnlyInitLeavesError : Prop :=
  ∀ (i : Instr) (s t : State), s.constructed = true → s.dec.phase = .error → exec i s = .next t →
    ((∃ m, i = .init m) ∧ t.dec = Decoder.initial) ∨ ((∀ m, i ≠ .init m) ∧ t.dec = s.dec)

/-- R36: in ERROR no instruction reads the unspecified elements: two instances that differ in them answer alike, the fault of R114
included. -/
def Obligations.DeadDecoderStateIsNotRead : Prop :=
  ∀ (i : Instr) (s : State) (hbuf pbuf : Bytes) (hdr : Option Header), s.constructed = true → s.dec.phase = .error →
    (exec i s = .fault .feedAfterError ∧
      exec i { s with dec := { s.dec with hbuf := hbuf, hdr := hdr, pbuf := pbuf } } = .fault .feedAfterError) ∨
    ∃ t u, exec i s = .next t ∧ exec i { s with dec := { s.dec with hbuf := hbuf, hdr := hdr, pbuf := pbuf } } = .next u ∧
      t.response = u.response ∧ t.dec.phase = u.dec.phase ∧ t.dec.errKind = u.dec.errKind

/-! ### The decoder: frames -/

/-- R115: an empty FEED is a no-op in every phase. -/
def Obligations.EmptyFeedIsNoOp : Prop :=
  ∀ s : State, s.constructed = true → exec (.feed []) s = .next { s with response := some (.events []) }

/-- R100, R114: a FEED to a live instance completes, whatever the bytes, with at most one event a byte; a non-empty one in ERROR is the fault. -/
def Obligations.FeedCompletesUnlessDead : Prop :=
  ∀ (s : State) (chunk : Bytes), s.constructed = true →
    (s.dec.phase ≠ .error → ∃ t evs, exec (.feed chunk) s = .next t ∧
      t = { s with dec := t.dec, response := some (.events evs), raiseCount := t.raiseCount } ∧ evs.length ≤ chunk.length) ∧
    (s.dec.phase = .error → chunk ≠ [] → exec (.feed chunk) s = .fault .feedAfterError)

/-- R110 to R113, R120 to R126: a whole frame of one of the six opcodes, with RSV = 0, FIN = 1 if it is a control frame, and a length that
passes every check, is emitted once, unmasked, and the instance is as it was before the frame. -/
def Obligations.WholeFrameIsEmitted : Prop :=
  ∀ (s : State) (f : Frame), s.Fresh → f.wf = true → f.rsvClear → f.payload.length = f.len.value →
    ∀ r ∈ validRows f, (controlOpcode r.1 = true → f.fin = true) → f.lengthOk s.params r.1 →
      exec r.2 s = .next { s with response := some (.events [.emit r.1 f.fin f.clear]) }

/-- R29, R110, R111: a frame whose payload has not all arrived emits nothing: its header is held, with the payload bytes so far as they came. -/
def Obligations.PartialFrameWaits : Prop :=
  ∀ (s : State) (f : Frame), s.Fresh → f.wf = true → f.rsvClear → f.payload.length < f.len.value →
    ∀ r ∈ validRows f, (controlOpcode r.1 = true → f.fin = true) → f.lengthOk s.params r.1 →
      exec r.2 s = .next { s with
        dec := { s.dec with
          phase := .awaitPayload
          hdr := some { fin := f.fin, opcode := r.1, masked := f.key.isSome, payloadLength := f.len.value
                        payloadOffset := hsize f.byte1, mask := f.key }
          pbuf := f.payload }
        response := some (.events []) }

/-- R29, R111 to R113, R118: a payload byte is stored as it came; the byte that completes the payload emits it, unmasked if the frame is masked,
and puts the decoder at the start of a frame. -/
def Obligations.PayloadByteStoresOrCompletes : Prop :=
  ∀ (s : State) (h : Header) (b : Byte), s.constructed = true → s.dec.phase = .awaitPayload → s.dec.hdr = some h →
    s.dec.written < h.payloadLength → h.mask.isSome = h.masked →
    exec (.feed [b]) s = .next (
      if s.dec.written + 1 < h.payloadLength then
        { s with dec := { s.dec with pbuf := s.dec.pbuf ++ [b] }, response := some (.events []) }
      else
        { s with
          dec := { s.dec with phase := .awaitHeader, hbuf := [], hdr := none, pbuf := [] }
          response := some (.events [.emit h.opcode h.fin (match h.mask with
            | none => s.dec.pbuf ++ [b]
            | some k => (s.dec.pbuf ++ [b]).mapIdx (fun i x => x ^^^ [k.k0, k.k1, k.k2, k.k3].getD (i % 4) 0#8))]) })

/-- R102, R103: the first byte of a frame goes to the scratch and raises nothing, even when it is invalid. -/
def Obligations.FirstByteRaisesNothing : Prop :=
  ∀ (s : State) (b : Byte), s.Fresh →
    exec (.feed [b]) s = .next { s with dec := { s.dec with hbuf := [b] }, response := some (.events []) }

/-- R50, R71, R72, R73, R110: what a finalized header holds, byte by byte, for a BINARY frame: the 16-bit and the 64-bit length are big-endian,
the key is the last four header bytes in wire order, and `payloadOffset` is the header's size. -/
def Obligations.HeaderBytesAreResolved : Prop :=
  ∀ s : State, s.Fresh →
    (∀ hi lo : Byte, 0 < hi.toNat * 2 ^ 8 + lo.toNat → hi.toNat * 2 ^ 8 + lo.toNat ≤ s.params.payloadCapacity →
      exec (.feed [0x82#8, 0x7E#8, hi, lo]) s = .next { s with
        dec := { phase := .awaitPayload, errKind := none, hbuf := [], pbuf := []
                 hdr := some ⟨true, 2#4, false, hi.toNat * 2 ^ 8 + lo.toNat, 4, none⟩ }
        response := some (.events []) }) ∧
    (∀ b0 b1 b2 b3 b4 b5 b6 b7 : Byte, ∀ len : Nat,
      len = b0.toNat * 2 ^ 56 + b1.toNat * 2 ^ 48 + b2.toNat * 2 ^ 40 + b3.toNat * 2 ^ 32 + b4.toNat * 2 ^ 24 +
        b5.toNat * 2 ^ 16 + b6.toNat * 2 ^ 8 + b7.toNat →
      0 < len → len ≤ s.params.payloadCapacity → len < s.params.lenCeiling →
      exec (.feed [0x82#8, 0x7F#8, b0, b1, b2, b3, b4, b5, b6, b7]) s = .next { s with
        dec := { phase := .awaitPayload, errKind := none, hbuf := [], pbuf := []
                 hdr := some ⟨true, 2#4, false, len, 10, none⟩ }
        response := some (.events []) }) ∧
    (∀ (n : Nat) (k0 k1 k2 k3 : Byte), 0 < n → n ≤ 125 → n ≤ s.params.payloadCapacity →
      exec (.feed [0x82#8, BitVec.ofNat 8 (128 + n), k0, k1, k2, k3]) s = .next { s with
        dec := { phase := .awaitPayload, errKind := none, hbuf := [], pbuf := []
                 hdr := some ⟨true, 2#4, true, n, 6, some ⟨k0, k1, k2, k3⟩⟩ }
        response := some (.events []) })

/-- R126: the decoder does not depend on `cfg_masking`: two instances that differ in it alone decode alike. -/
def Obligations.DecoderIgnoresMasking : Prop :=
  ∀ (s t : State) (m : Bool) (chunk : Bytes), exec (.feed chunk) s = .next t →
    exec (.feed chunk) { s with cfgMasking := m } = .next { t with cfgMasking := m }

/-- R54, R117: however a stream is cut into chunks, the events up to and including the first error, and the state after them, are those of
the stream fed whole. -/
def Obligations.ChunkInvariance : Prop :=
  ∀ (s : State) (chunks : List Bytes), s.constructed = true → s.dec.phase ≠ .error →
    ∃ evs t u, feedChunks chunks s = some (evs, t) ∧ exec (.feed chunks.flatten) s = .next u ∧
      u.response = some (.events evs) ∧ t.dec = u.dec ∧ t.raiseCount = u.raiseCount

/-- R168: a built frame, masked with any draw or not, decodes to exactly one event with the opcode, FIN = 1 and the payload, and leaves the decoder
at the start of a frame. -/
def Obligations.BuildThenFeedRoundTrips : Prop :=
  ∀ (s u : State) (p : Bytes), s.constructed = true → s.params.Legal → p.length < s.params.lenCeiling →
    u.Fresh → u.params = s.params → p.length ≤ u.params.payloadCapacity →
    ∀ r ∈ buildRows p, (u.params.enforceControlLen = true → controlOpcode r.1 = true → p.length ≤ 125) →
      ∃ t bytes, exec r.2 s = .next t ∧ t.response = some (.frame bytes) ∧
        exec (.feed bytes) u = .next { u with response := some (.events [.emit r.1 true p]) }

/-! ### Invariants -/

/-- R23, R27 to R30 at power-on. The decoder's values there are the model's choice (log 5). -/
def Obligations.ResetMeetsTheInvariant : Prop := State.reset.Inv

/-- R23, R27 to R30: every step keeps the invariant: ERROR exactly when `err_kind` is not 0, at most 14 bytes in the scratch; and, in the
live phases, in AWAIT_PAYLOAD a header held with the frame invariants, fewer bytes than its length and a clear scratch, in AWAIT_HEADER
no header and the scratch a proper part of one that passed its checks. In ERROR the header, the payload bytes and the scratch's contents
are free (log 7), and the invariant says nothing of them but the scratch's bound. -/
def Obligations.StepKeepsTheInvariant : Prop :=
  ∀ s t : State, s.Inv → step s = .next t → t.Inv

/-! ### The decoder: headers in progress -/

/-- R27, R101, R102: a header that is not complete, of a frame that passes the checks on its first byte and on its length, emits nothing and
raises nothing, wherever it is cut: the scratch holds the bytes that came, and nothing else of the instance changes. The capacity, which
R110 checks at the last header byte, is not asked for. -/
def Obligations.PartialHeaderWaits : Prop :=
  ∀ (s : State) (f : Frame) (n : Nat), s.Fresh → f.wf = true → f.rsvClear → f.len.value < s.params.lenCeiling → n < hsize f.byte1 →
    ∀ r ∈ validRows f, (controlOpcode r.1 = true → f.fin = true) →
      (s.params.enforceControlLen = true → controlOpcode r.1 = true → f.len.value ≤ 125) →
      exec (.feed ((f.bytes r.1).take n)) s = .next { s with
        dec := { s.dec with hbuf := (f.bytes r.1).take n }
        response := some (.events []) }
end

