-- ==== Sys2Proof/Laws/Encoding.lean ====
section
/-! SUPPORT. The small lemmas of the encodings: big-endian bytes, the fields of a frame's first two bytes, the key bytes, the sizes of a
header's parts. -/

namespace Sys2Proof

/-! ### Big-endian bytes -/

@[simp] theorem beBytes_length (n v : Nat) : (beBytes n v).length = n := by
  induction n generalizing v with
  | zero => rfl
  | succ n ih => simp [beBytes, ih]

theorem foldl_beBytes (n v acc : Nat) :
    (beBytes n v).foldl (fun acc b => acc * 256 + b.toNat) acc = acc * 256 ^ n + v % 256 ^ n := by
  induction n generalizing v acc with
  | zero => simp [beBytes, Nat.mod_one]
  | succ n ih =>
    have h : v % 256 ^ (n + 1) = v % 256 ^ n + 256 ^ n * (v / 256 ^ n % 256) := by
      rw [Nat.pow_succ, Nat.mod_mul]
    rw [beBytes, List.foldl_cons, ih, BitVec.toNat_ofNat, h, show 2 ^ 8 = 256 from rfl]
    ring

/-- Reading what `beBytes` writes gives the value back, modulo what `n` bytes hold. -/
@[simp] theorem beNat_beBytes (n v : Nat) : beNat (beBytes n v) = v % 256 ^ n := by
  simp [beNat, foldl_beBytes]

theorem foldl_beNat (s : Bytes) (acc : Nat) :
    s.foldl (fun acc b => acc * 256 + b.toNat) acc = acc * 256 ^ s.length + beNat s := by
  induction s generalizing acc with
  | nil => simp [beNat]
  | cons b s ih =>
    have h0 : beNat (b :: s) = (0 * 256 + b.toNat) * 256 ^ s.length + beNat s := ih _
    rw [List.foldl_cons, ih, h0, List.length_cons, Nat.pow_succ]
    ring

theorem beNat_cons (b : Byte) (s : Bytes) : beNat (b :: s) = b.toNat * 256 ^ s.length + beNat s := by
  simpa [beNat] using foldl_beNat s b.toNat

theorem beNat_lt (s : Bytes) : beNat s < 256 ^ s.length := by
  induction s with
  | nil => simp [beNat]
  | cons b s ih =>
    rw [beNat_cons, List.length_cons, Nat.pow_succ]
    have hb : b.toNat ≤ 255 := by have := b.isLt; omega
    have := Nat.mul_le_mul_right (256 ^ s.length) hb
    omega

/-- Writing what `beNat` reads gives the bytes back. -/
theorem beBytes_beNat (s : Bytes) : beBytes s.length (beNat s) = s := by
  induction s with
  | nil => rfl
  | cons b s ih =>
    have hlt := beNat_lt s
    have hpos : 0 < 256 ^ s.length := by positivity
    have key : ∀ n v w : Nat, beBytes n (w * 256 ^ n + v) = beBytes n v := by
      intro n
      induction n with
      | zero => intros; rfl
      | succ n ihn =>
        intro v w
        simp only [beBytes]
        have e1 : w * 256 ^ (n + 1) + v = (w * 256) * 256 ^ n + v := by ring
        rw [e1, ihn v (w * 256)]
        congr 1
        rw [Nat.add_comm, Nat.add_mul_div_right _ _ (by positivity)]
        apply BitVec.eq_of_toNat_eq
        simp
    rw [beNat_cons, List.length_cons, beBytes, key, ih]
    congr 1
    rw [Nat.add_comm, Nat.add_mul_div_right _ _ hpos, Nat.div_eq_of_lt hlt]
    simp

/-! ### The first two bytes of a frame -/

@[simp] theorem opcodeOf_byte0 (op : BitVec 4) (f : Frame) : opcodeOf (f.byte0 op) = op := by
  have h : ∀ a b c d : Bool, ∀ o : BitVec 4,
      opcodeOf (bit a ++ bit b ++ bit c ++ bit d ++ o) = o := by decide
  exact h ..

@[simp] theorem finOf_byte0 (op : BitVec 4) (f : Frame) : finOf (f.byte0 op) = f.fin := by
  have h : ∀ a b c d : Bool, ∀ o : BitVec 4,
      finOf (bit a ++ bit b ++ bit c ++ bit d ++ o) = a := by decide
  exact h ..

@[simp] theorem rsv_byte0 (op : BitVec 4) (f : Frame) :
    (f.byte0 op).getLsbD 6 = f.rsv1 ∧ (f.byte0 op).getLsbD 5 = f.rsv2 ∧ (f.byte0 op).getLsbD 4 = f.rsv3 := by
  have h : ∀ a b c d : Bool, ∀ o : BitVec 4,
      (bit a ++ bit b ++ bit c ++ bit d ++ o : Byte).getLsbD 6 = b ∧
      (bit a ++ bit b ++ bit c ++ bit d ++ o : Byte).getLsbD 5 = c ∧
      (bit a ++ bit b ++ bit c ++ bit d ++ o : Byte).getLsbD 4 = d := by decide
  exact h ..

@[simp] theorem maskedOf_byte1 (f : Frame) : maskedOf f.byte1 = f.key.isSome := by
  have h : ∀ a : Bool, ∀ n : BitVec 7, maskedOf (bit a ++ n) = a := by decide
  exact h ..

@[simp] theorem len7Of_byte1 (f : Frame) : len7Of f.byte1 = f.len.len7 := by
  have h : ∀ a : Bool, ∀ n : BitVec 7, len7Of (bit a ++ n) = n := by decide
  exact h ..

/-- Byte 0 is the join of its fields. -/
theorem byte0_fields (b : Byte) :
    bit (finOf b) ++ bit (b.getLsbD 6) ++ bit (b.getLsbD 5) ++ bit (b.getLsbD 4) ++ opcodeOf b = b := by
  revert b; decide

/-- Byte 1 is the join of its fields. -/
theorem byte1_fields (b : Byte) : bit (maskedOf b) ++ len7Of b = b := by
  revert b; decide

/-! ### The command word -/

/-- The fields of a command word are those it was made of (R80). -/
theorem commandWord_fields (c o : BitVec 4) (f : Bool) :
    (commandWord c o f).extractLsb' 12 4 = c ∧ (commandWord c o f).extractLsb' 8 4 = o ∧
      (commandWord c o f).extractLsb' 1 7 = 0#7 ∧ (commandWord c o f).getLsbD 0 = f := by
  revert c o f; decide

/-- A command word is the join of its fields. -/
theorem word_fields (w : Word) :
    w.extractLsb' 12 4 ++ w.extractLsb' 8 4 ++ w.extractLsb' 1 7 ++ bit (w.getLsbD 0) = w := by
  apply BitVec.eq_of_getLsbD_eq
  intro i hi
  simp only [BitVec.getLsbD_append, BitVec.getLsbD_extractLsb', bit, BitVec.getLsbD_ofBool]
  interval_cases i <;> simp

/-- A command word made of its fields is decoded by them. -/
theorem decodeCommand_commandWord (c o : BitVec 4) (f : Bool) (d : Bytes) (k : Key) (n : Nat) :
    decodeCommand ⟨commandWord c o f, d, k, n⟩ = decodeFields c o 0#7 f d k n := by
  obtain ⟨h1, h2, h3, h4⟩ := commandWord_fields c o f
  simp only [decodeCommand, h1, h2, h3, h4]

/-! ### The parts of a header -/

@[simp] theorem keyBytes_length (k : Option Key) : (keyBytes k).length = if k.isSome then 4 else 0 := by
  cases k <;> rfl

@[simp] theorem keyOf_keyBytes (k : Key) : keyOf (keyBytes (some k)) = some k := rfl

theorem keyOf_four {s : Bytes} (h : s.length = 4) : ∃ k, keyOf s = some k ∧ keyBytes (some k) = s := by
  match s, h with
  | [a, b, c, d], _ => exact ⟨⟨a, b, c, d⟩, rfl, rfl⟩

/-- The extension bytes are as many as the 7-bit field announces. -/
theorem ext_length {l : LenField} (h : l.wf = true) : l.ext.length = extSize l.len7 := by
  cases l with
  | short n => simp [LenField.wf] at h; simp [LenField.ext, LenField.len7, extSize, h]
  | ext16 n => simp [LenField.ext, LenField.len7, extSize]
  | ext64 n => simp [LenField.ext, LenField.len7, extSize]

/-- The length field read from what the encoder wrote. -/
theorem lenFieldOf_ext {l : LenField} (h : l.wf = true) : lenFieldOf l.len7 l.ext = l := by
  cases l with
  | short n => simp [LenField.wf] at h; simp [LenField.len7, lenFieldOf, h]
  | ext16 n =>
    have := n.isLt
    simp [LenField.ext, LenField.len7, lenFieldOf, Nat.mod_eq_of_lt this]
  | ext64 n =>
    have := n.isLt
    simp [LenField.ext, LenField.len7, lenFieldOf, Nat.mod_eq_of_lt this]

theorem hsize_byte1 {f : Frame} (h : f.wf = true) :
    hsize f.byte1 = 2 + f.len.ext.length + (keyBytes f.key).length := by
  simp only [Frame.wf, Bool.and_eq_true] at h
  simp [hsize, ext_length h.1]

/-- A header is 2 to 14 bytes (R71). -/
theorem hsize_bounds (b : Byte) : 2 ≤ hsize b ∧ hsize b ≤ 14 := by
  revert b; decide

theorem encode_wireInstr (op : BitVec 4) (f : Frame) : encode (wireInstr op f) = .wire (f.bytes op) := by
  match op with
  | ⟨⟨n, h⟩⟩ => interval_cases n <;> rfl

end Sys2Proof
end

