-- ==== Sys2Proof/Laws/Masker.lean ====
section
/-! SUPPORT. What the masker and the encoder's operations do, once each. -/

namespace Sys2Proof.Machine

@[simp] theorem maskFrom_length (k : Key) (i : Nat) (bytes : Bytes) : (maskFrom k i bytes).length = bytes.length := by
  induction bytes generalizing i with
  | nil => rfl
  | cons b bs ih => simp [maskFrom, ih]

/-- Masking from key index `i` is XOR with the key byte of each lane. -/
theorem maskFrom_eq_mapIdx (k : Key) (i : Nat) (bytes : Bytes) :
    maskFrom k i bytes = bytes.mapIdx (fun j b => b ^^^ keyLane k (i + j)) := by
  induction bytes generalizing i with
  | nil => rfl
  | cons b bs ih =>
    rw [maskFrom, ih, List.mapIdx_cons]
    congr 2
    funext j x
    congr 2
    omega

@[simp] theorem applyMask_none (bytes : Bytes) (n : Nat) : applyMask bytes none n = bytes := rfl

@[simp] theorem applyMask_length (bytes : Bytes) (k : Option Key) (n : Nat) : (applyMask bytes k n).length = bytes.length := by
  cases k with
  | none => rfl
  | some k => simp [applyMask]; omega

theorem keyLane_eq (k : Key) (i : Nat) : keyLane k i = [k.k0, k.k1, k.k2, k.k3].getD (i % 4) 0#8 := by
  have h : i % 4 < 4 := Nat.mod_lt _ (by omega)
  unfold keyLane
  interval_cases i % 4 <;> rfl

/-- Masking after a part that the offset skips. -/
theorem applyMask_append (a b : Bytes) (k : Key) : applyMask (a ++ b) (some k) a.length = a ++ maskFrom k 0 b := by
  simp [applyMask]

@[simp] theorem buildHeader_length (op : BitVec 4) (len : Nat) (k : Option Key) :
    (buildHeader op len k).length = buildOffset len k := by
  cases k <;> simp [buildHeader, buildOffset] <;> omega

/-- A built frame is its header and the payload, masked if there is a key. -/
theorem encodeFrame_eq (op : BitVec 4) (p : Bytes) (k : Option Key) :
    encodeFrame op p k = buildHeader op p.length k ++ (match k with | none => p | some k => maskFrom k 0 p) := by
  cases k with
  | none => rfl
  | some k => rw [encodeFrame, ← buildHeader_length op, applyMask_append]

end Sys2Proof.Machine
end

