-- ==== Sys2Proof/Laws/State.lean ====
section
/-! SUPPORT. One lemma for each field of each update of the state, so that no proof unfolds a record update. -/

namespace Sys2Proof.Machine

@[simp] theorem State.respond_params (s : State) (r : Response) : (s.respond r).params = s.params := rfl
@[simp] theorem State.respond_constructed (s : State) (r : Response) : (s.respond r).constructed = s.constructed := rfl
@[simp] theorem State.respond_cfgMasking (s : State) (r : Response) : (s.respond r).cfgMasking = s.cfgMasking := rfl
@[simp] theorem State.respond_dec (s : State) (r : Response) : (s.respond r).dec = s.dec := rfl
@[simp] theorem State.respond_pending (s : State) (r : Response) : (s.respond r).pending = s.pending := rfl
@[simp] theorem State.respond_response (s : State) (r : Response) : (s.respond r).response = some r := rfl
@[simp] theorem State.respond_trace (s : State) (r : Response) : (s.respond r).trace = s.trace := rfl
@[simp] theorem State.respond_draws (s : State) (r : Response) : (s.respond r).draws = s.draws := rfl
@[simp] theorem State.respond_drawCount (s : State) (r : Response) : (s.respond r).drawCount = s.drawCount := rfl
@[simp] theorem State.respond_raiseCount (s : State) (r : Response) : (s.respond r).raiseCount = s.raiseCount := rfl

@[simp] theorem State.construct_params (s : State) (m : Bool) : (s.construct m).params = s.params := rfl
@[simp] theorem State.construct_constructed (s : State) (m : Bool) : (s.construct m).constructed = true := rfl
@[simp] theorem State.construct_cfgMasking (s : State) (m : Bool) : (s.construct m).cfgMasking = m := rfl
@[simp] theorem State.construct_dec (s : State) (m : Bool) : (s.construct m).dec = Decoder.initial := rfl
@[simp] theorem State.construct_pending (s : State) (m : Bool) : (s.construct m).pending = s.pending := rfl
@[simp] theorem State.construct_response (s : State) (m : Bool) : (s.construct m).response = s.response := rfl
@[simp] theorem State.construct_trace (s : State) (m : Bool) : (s.construct m).trace = s.trace := rfl
@[simp] theorem State.construct_draws (s : State) (m : Bool) : (s.construct m).draws = s.draws := rfl
@[simp] theorem State.construct_drawCount (s : State) (m : Bool) : (s.construct m).drawCount = s.drawCount := rfl
@[simp] theorem State.construct_raiseCount (s : State) (m : Bool) : (s.construct m).raiseCount = s.raiseCount := rfl

@[simp] theorem State.consumeDraw_params (s : State) : (s.consumeDraw).params = s.params := rfl
@[simp] theorem State.consumeDraw_constructed (s : State) : (s.consumeDraw).constructed = s.constructed := rfl
@[simp] theorem State.consumeDraw_cfgMasking (s : State) : (s.consumeDraw).cfgMasking = s.cfgMasking := rfl
@[simp] theorem State.consumeDraw_dec (s : State) : (s.consumeDraw).dec = s.dec := rfl
@[simp] theorem State.consumeDraw_pending (s : State) : (s.consumeDraw).pending = s.pending := rfl
@[simp] theorem State.consumeDraw_response (s : State) : (s.consumeDraw).response = s.response := rfl
@[simp] theorem State.consumeDraw_trace (s : State) : (s.consumeDraw).trace = s.trace := rfl
@[simp] theorem State.consumeDraw_draws (s : State) : (s.consumeDraw).draws = s.draws.tail := rfl
@[simp] theorem State.consumeDraw_drawCount (s : State) : (s.consumeDraw).drawCount = s.drawCount + 1 := rfl
@[simp] theorem State.consumeDraw_raiseCount (s : State) : (s.consumeDraw).raiseCount = s.raiseCount := rfl

@[simp] theorem State.issue_params (s : State) (c : Command) : (s.issue c).params = s.params := rfl
@[simp] theorem State.issue_constructed (s : State) (c : Command) : (s.issue c).constructed = s.constructed := rfl
@[simp] theorem State.issue_cfgMasking (s : State) (c : Command) : (s.issue c).cfgMasking = s.cfgMasking := rfl
@[simp] theorem State.issue_dec (s : State) (c : Command) : (s.issue c).dec = s.dec := rfl
@[simp] theorem State.issue_pending (s : State) (c : Command) : (s.issue c).pending = c :: s.pending := rfl
@[simp] theorem State.issue_response (s : State) (c : Command) : (s.issue c).response = s.response := rfl
@[simp] theorem State.issue_trace (s : State) (c : Command) : (s.issue c).trace = s.trace := rfl
@[simp] theorem State.issue_draws (s : State) (c : Command) : (s.issue c).draws = s.draws := rfl
@[simp] theorem State.issue_drawCount (s : State) (c : Command) : (s.issue c).drawCount = s.drawCount := rfl
@[simp] theorem State.issue_raiseCount (s : State) (c : Command) : (s.issue c).raiseCount = s.raiseCount := rfl

@[simp] theorem Decoder.frameReset_phase (d : Decoder) : (d.frameReset).phase = .awaitHeader := rfl
@[simp] theorem Decoder.frameReset_errKind (d : Decoder) : (d.frameReset).errKind = d.errKind := rfl
@[simp] theorem Decoder.frameReset_hbuf (d : Decoder) : (d.frameReset).hbuf = [] := rfl
@[simp] theorem Decoder.frameReset_hdr (d : Decoder) : (d.frameReset).hdr = none := rfl
@[simp] theorem Decoder.frameReset_pbuf (d : Decoder) : (d.frameReset).pbuf = [] := rfl

@[simp] theorem Decoder.raise_phase (p : Params) (n : Nat) (k : ErrKind) : (Decoder.raise p n k).phase = .error := rfl
@[simp] theorem Decoder.raise_errKind (p : Params) (n : Nat) (k : ErrKind) : (Decoder.raise p n k).errKind = some k := rfl
@[simp] theorem Decoder.raise_hbuf (p : Params) (n : Nat) (k : ErrKind) : (Decoder.raise p n k).hbuf = (Config.deadHbuf n).take 14 := rfl
@[simp] theorem Decoder.raise_hdr (p : Params) (n : Nat) (k : ErrKind) : (Decoder.raise p n k).hdr = Config.deadHdr n := rfl
@[simp] theorem Decoder.raise_pbuf (p : Params) (n : Nat) (k : ErrKind) : (Decoder.raise p n k).pbuf = (Config.deadPbuf n).take p.payloadCapacity := rfl

@[simp] theorem Decoder.initial_phase : (Decoder.initial).phase = .awaitHeader := rfl
@[simp] theorem Decoder.initial_errKind : (Decoder.initial).errKind = none := rfl
@[simp] theorem Decoder.initial_hbuf : (Decoder.initial).hbuf = [] := rfl
@[simp] theorem Decoder.initial_hdr : (Decoder.initial).hdr = none := rfl
@[simp] theorem Decoder.initial_pbuf : (Decoder.initial).pbuf = [] := rfl

@[simp] theorem headerByte_phase (b : Byte) (d : Decoder) : (headerByte b d).phase = d.phase := rfl
@[simp] theorem headerByte_errKind (b : Byte) (d : Decoder) : (headerByte b d).errKind = d.errKind := rfl
@[simp] theorem headerByte_hbuf (b : Byte) (d : Decoder) : (headerByte b d).hbuf = d.hbuf ++ [b] := rfl
@[simp] theorem headerByte_hdr (b : Byte) (d : Decoder) : (headerByte b d).hdr = d.hdr := rfl
@[simp] theorem headerByte_pbuf (b : Byte) (d : Decoder) : (headerByte b d).pbuf = d.pbuf := rfl

@[simp] theorem storeByte_phase (b : Byte) (d : Decoder) : (storeByte b d).phase = d.phase := rfl
@[simp] theorem storeByte_errKind (b : Byte) (d : Decoder) : (storeByte b d).errKind = d.errKind := rfl
@[simp] theorem storeByte_hbuf (b : Byte) (d : Decoder) : (storeByte b d).hbuf = d.hbuf := rfl
@[simp] theorem storeByte_hdr (b : Byte) (d : Decoder) : (storeByte b d).hdr = d.hdr := rfl
@[simp] theorem storeByte_pbuf (b : Byte) (d : Decoder) : (storeByte b d).pbuf = d.pbuf ++ [b] := rfl

@[simp] theorem headerByte_hcnt (b : Byte) (d : Decoder) : (headerByte b d).hcnt = d.hcnt + 1 := by
  simp [Decoder.hcnt]

@[simp] theorem storeByte_written (b : Byte) (d : Decoder) : (storeByte b d).written = d.written + 1 := by
  simp [Decoder.written]

/-- A state is its own copy with the response it has. -/
theorem State.respond_eq (s : State) (r : Response) : s.respond r = { s with response := some r } := rfl

end Sys2Proof.Machine
end

