-- ==== Sys2Proof/Laws/Decoder.lean ====
section
/-! SUPPORT. What the decoder's functions do, once each: one byte of a header, one byte of a payload, a run of header bytes, a run of payload
bytes, and the loop over a chunk cut in two. -/

namespace Sys2Proof.Machine

/-! ### The checks -/

/-- `checkBase` on the byte that the encoder writes, by the frame's fields (R103 to R106). -/
theorem checkBase_byte0 (op : BitVec 4) (f : Frame) :
    checkBase (f.byte0 op) =
      if f.rsv1 || f.rsv2 || f.rsv3 then some .rsvNonZero
      else if validOpcode op = false then some .invalidOpcode
      else if controlOpcode op && !f.fin then some .expectedFinal
      else none := by
  have h : ∀ a b c d : Bool, ∀ o : BitVec 4,
      checkBase (bit a ++ bit b ++ bit c ++ bit d ++ o) =
        if b || c || d then some .rsvNonZero
        else if validOpcode o = false then some .invalidOpcode
        else if controlOpcode o && !a then some .expectedFinal
        else none := by decide
  exact h ..

/-- A length field is decided by its own bytes: what follows them changes nothing. -/
theorem lenOf_append (n : BitVec 7) (b0 b1 : Byte) (t x : Bytes) (h : extSize n ≤ t.length) :
    lenOf n (b0 :: b1 :: (t ++ x)) = lenOf n (b0 :: b1 :: t) := by
  by_cases h1 : n.toNat ≤ 125
  · simp [lenOf, h1]
  · by_cases h2 : n.toNat = 126
    · have h' : 2 ≤ t.length := by simpa [extSize, h2] using h
      simp [lenOf, h2, memRead, List.take_append_of_le_length h']
    · have h' : 8 ≤ t.length := by simpa [extSize, h1, h2] using h
      simp [lenOf, h1, h2, memRead, List.take_append_of_le_length h']

theorem checkLength_append (p : Params) (b0 b1 : Byte) (t x : Bytes) (h : extSize (len7Of b1) ≤ t.length) :
    checkLength p b0 b1 (b0 :: b1 :: (t ++ x)) = checkLength p b0 b1 (b0 :: b1 :: t) := by
  simp [checkLength, checkLen, lenOf_append _ b0 b1 t x h]

/-- The length resolved from the bytes of a frame is the frame's length (R72, R107). -/
theorem lenOf_frame {l : LenField} (h : l.wf = true) (b0 b1 : Byte) (x : Bytes) :
    lenOf l.len7 (b0 :: b1 :: (l.ext ++ x)) = l.value := by
  rw [lenOf_append _ _ _ _ _ (by rw [ext_length h])]
  cases l with
  | short n => simp [LenField.wf] at h; simp [LenField.len7, LenField.value, lenOf, h]
  | ext16 n =>
    have := n.isLt
    have e : (beBytes 2 n.toNat).take 2 = beBytes 2 n.toNat := List.take_of_length_le (by simp)
    simp [LenField.ext, LenField.len7, LenField.value, lenOf, memRead, e, Nat.mod_eq_of_lt this]
  | ext64 n =>
    have := n.isLt
    have e : (beBytes 8 n.toNat).take 8 = beBytes 8 n.toNat := List.take_of_length_le (by simp)
    simp [LenField.ext, LenField.len7, LenField.value, lenOf, memRead, e, Nat.mod_eq_of_lt this]

/-! ### One byte of a header -/

/-- The second byte raises what `checkBase` says. -/
theorem headerStep_base {p : Params} {d : Decoder} {b0 b1 : Byte} {k : ErrKind} (h : d.hbuf = [b0, b1])
    (hk : checkBase b0 = some k) : headerStep p d = .raised k := by
  unfold headerStep Decoder.hcnt
  simp [h, hk]

/-- The byte that completes the length field raises what `checkLength` says. -/
theorem headerStep_length {p : Params} {d : Decoder} {b0 b1 : Byte} {t : Bytes} {k : ErrKind} (h : d.hbuf = b0 :: b1 :: t)
    (hb : t = [] → checkBase b0 = none) (he : t.length = extSize (len7Of b1))
    (hk : checkLength p b0 b1 d.hbuf = some k) : headerStep p d = .raised k := by
  unfold headerStep Decoder.hcnt
  rw [h] at *
  have hb' : (if (b0 :: b1 :: t).length = 2 then checkBase b0 else none) = none := by
    cases t with
    | nil => simp [hb rfl]
    | cons x t => simp
  simp only [hb']
  simp only [List.length_cons, he, show extSize (len7Of b1) + 1 + 1 = 2 + extSize (len7Of b1) by omega, if_true, hk]

/-- Where the checks pass, a header byte waits for more, or completes the header. -/
theorem headerStep_pass {p : Params} {d : Decoder} {b0 b1 : Byte} {t : Bytes} (h : d.hbuf = b0 :: b1 :: t)
    (hb : t = [] → checkBase b0 = none)
    (hl : t.length = extSize (len7Of b1) → checkLength p b0 b1 d.hbuf = none) :
    headerStep p d = if 2 + t.length < hsize b1 then .ok d [] else finalize p b0 b1 d := by
  unfold headerStep Decoder.hcnt
  rw [h] at *
  have hb' : (if (b0 :: b1 :: t).length = 2 then checkBase b0 else none) = none := by
    cases t with
    | nil => simp [hb rfl]
    | cons x t => simp
  have hl' : (if (b0 :: b1 :: t).length = 2 + extSize (len7Of b1) then checkLength p b0 b1 (b0 :: b1 :: t) else none) = none := by
    split
    · rename_i hh
      exact hl (by simp at hh; omega)
    · rfl
  simp only [hb', hl']
  simp only [List.length_cons, show t.length + 1 + 1 = 2 + t.length by omega]

/-! ### The loop -/

@[simp] theorem feedBytes_nil (p : Params) (n : Nat) (d : Decoder) : feedBytes p n [] d = ([], d) := rfl

theorem feedBytes_ok {p : Params} {n : Nat} {b : Byte} {bs : Bytes} {d d' : Decoder} {evs : List Event}
    (h : decodeByte p b d = .ok d' evs) :
    feedBytes p n (b :: bs) d = (evs ++ (feedBytes p n bs d').1, (feedBytes p n bs d').2) := by
  simp only [feedBytes, h]

theorem feedBytes_wait {p : Params} {n : Nat} {b : Byte} {bs : Bytes} {d d' : Decoder}
    (h : decodeByte p b d = .ok d' []) : feedBytes p n (b :: bs) d = feedBytes p n bs d' := by
  simp only [feedBytes, h, List.nil_append]

theorem feedBytes_raised {p : Params} {n : Nat} {b : Byte} {bs : Bytes} {d : Decoder} {k : ErrKind}
    (h : decodeByte p b d = .raised k) : feedBytes p n (b :: bs) d = ([.error k], Decoder.raise p n k) := by
  simp only [feedBytes, h]

theorem decodeByte_header {p : Params} {b : Byte} {d : Decoder} (h : d.phase = .awaitHeader) :
    decodeByte p b d = headerStep p (headerByte b d) := by
  simp [decodeByte, h]

theorem decodeByte_payload {p : Params} {b : Byte} {d : Decoder} (h : d.phase = .awaitPayload) :
    decodeByte p b d = payloadByte b d := by
  simp [decodeByte, h]

theorem finalize_ok {p : Params} {b0 b1 : Byte} {d d' : Decoder} {evs : List Event} (h : finalize p b0 b1 d = .ok d' evs) :
    d'.phase ≠ .error ∧ d'.errKind = d.errKind ∧ (evs = [] ∨ ∃ op fin q, evs = [.emit op fin q]) := by
  unfold finalize at h
  simp only at h
  split at h
  · cases h
  · split at h <;> cases h <;> simp

/-- A byte that raises nothing leaves the decoder live, keeps `err_kind`, and emits at most one event, an `Emit`. -/
theorem decodeByte_ok {p : Params} {b : Byte} {d d' : Decoder} {evs : List Event} (hp : d.phase ≠ .error)
    (h : decodeByte p b d = .ok d' evs) :
    d'.phase ≠ .error ∧ d'.errKind = d.errKind ∧ (evs = [] ∨ ∃ op fin q, evs = [.emit op fin q]) := by
  cases hph : d.phase with
  | error => exact absurd hph hp
  | awaitHeader =>
    rw [decodeByte_header hph] at h
    unfold headerStep at h
    split at h
    · split at h
      · cases h
      · split at h
        · cases h
        · split at h
          · cases h; simp [hph]
          · simpa using finalize_ok h
    · cases h; simp [hph]
  | awaitPayload =>
    rw [decodeByte_payload hph] at h
    unfold payloadByte at h
    split at h
    · cases h; simp [hph]
    · split at h
      · unfold complete at h
        cases h; simp
      · cases h; simp [hph]

/-- A chunk cut in two: where the first part ends in ERROR, the second is not consumed; else it is fed to the decoder the first part
leaves (R116, R117). -/
theorem feedBytes_append (p : Params) (n : Nat) (a b : Bytes) (d : Decoder) (hp : d.phase ≠ .error) :
    feedBytes p n (a ++ b) d =
      if (feedBytes p n a d).2.phase = .error then feedBytes p n a d
      else ((feedBytes p n a d).1 ++ (feedBytes p n b (feedBytes p n a d).2).1, (feedBytes p n b (feedBytes p n a d).2).2) := by
  induction a generalizing d with
  | nil => simp [hp]
  | cons x a ih =>
    cases hx : decodeByte p x d with
    | raised k => simp [feedBytes_raised hx]
    | ok d' evs =>
      have hd := (decodeByte_ok hp hx).1
      rw [List.cons_append, feedBytes_ok hx, feedBytes_ok hx, ih d' hd]
      split <;> simp_all

/-! ### Runs of bytes -/

/-- A run of header bytes after the first two, none of which completes the header or fails a check, goes to the scratch. -/
theorem feedBytes_scratch (p : Params) (n : Nat) (b0 b1 : Byte) (xs rest : Bytes) :
    ∀ (d : Decoder) (t : Bytes), d.phase = .awaitHeader → d.hbuf = b0 :: b1 :: t →
      2 + t.length + xs.length < hsize b1 →
      (t.length < extSize (len7Of b1) → extSize (len7Of b1) ≤ t.length + xs.length →
        checkLength p b0 b1 (b0 :: b1 :: (t ++ xs)) = none) →
      feedBytes p n (xs ++ rest) d = feedBytes p n rest { d with hbuf := b0 :: b1 :: (t ++ xs) } := by
  induction xs with
  | nil =>
    intro d t _ hb _ _
    simp [← hb]
  | cons x xs ih =>
    intro d t hp hb hlen hck
    have hb' : (headerByte x d).hbuf = b0 :: b1 :: (t ++ [x]) := by simp [hb]
    have hstep : decodeByte p x d = .ok (headerByte x d) [] := by
      rw [decodeByte_header hp, headerStep_pass hb' (by simp)]
      · rw [if_pos]
        simp at hlen ⊢; omega
      · intro he
        rw [hb']
        have hle : extSize (len7Of b1) ≤ (t ++ [x]).length := by omega
        have := hck (by simp at he; omega) (by simp at he ⊢; omega)
        rw [show t ++ x :: xs = (t ++ [x]) ++ xs by simp, checkLength_append _ _ _ _ _ hle] at this
        exact this
    rw [List.cons_append, feedBytes_wait hstep, ih (headerByte x d) (t ++ [x]) (by simp [hp]) hb']
    · simp [headerByte]
    · simp at hlen ⊢; omega
    · intro h1 h2
      simp at h1 h2
      have := hck (by omega) (by simp; omega)
      simpa using this

/-- A payload byte that does not complete the payload is stored. -/
theorem decodeByte_store {p : Params} {b : Byte} {d : Decoder} {h : Header} (hp : d.phase = .awaitPayload) (hh : d.hdr = some h)
    (hl : d.written + 1 ≠ h.payloadLength) : decodeByte p b d = .ok (storeByte b d) [] := by
  rw [decodeByte_payload hp]
  simp [payloadByte, hh, hl]

/-- The payload byte that completes the payload emits the frame and resets (R111 to R113). -/
theorem decodeByte_complete {p : Params} {b : Byte} {d : Decoder} {h : Header} (hp : d.phase = .awaitPayload)
    (hh : d.hdr = some h) (hl : d.written + 1 = h.payloadLength) :
    decodeByte p b d = .ok d.frameReset
      [.emit h.opcode h.fin (if h.masked then applyMask (d.pbuf ++ [b]) h.mask 0 else d.pbuf ++ [b])] := by
  have hr : memRead (d.pbuf ++ [b]) 0 h.payloadLength = d.pbuf ++ [b] :=
    List.take_of_length_le (by simp [Decoder.written] at hl ⊢; omega)
  rw [decodeByte_payload hp]
  simp only [payloadByte, hh, storeByte_written, hl, if_true, complete, storeByte_pbuf, hr]
  rfl

/-- A run of payload bytes that does not complete the payload goes to the payload buffer. -/
theorem feedBytes_payload_wait (p : Params) (n : Nat) (h : Header) (xs rest : Bytes) :
    ∀ d : Decoder, d.phase = .awaitPayload → d.hdr = some h → d.written + xs.length < h.payloadLength →
      feedBytes p n (xs ++ rest) d = feedBytes p n rest { d with pbuf := d.pbuf ++ xs } := by
  induction xs with
  | nil => intro d _ _ _; simp
  | cons x xs ih =>
    intro d hp hh hl
    rw [List.length_cons] at hl
    rw [List.cons_append, feedBytes_wait (decodeByte_store hp hh (by omega)), ih (storeByte x d) hp hh]
    · simp [storeByte]
    · rw [storeByte_written]; omega

/-- The run of payload bytes that completes the payload emits the frame and resets. -/
theorem feedBytes_payload_complete (p : Params) (n : Nat) (h : Header) (xs rest : Bytes) (d : Decoder) (hp : d.phase = .awaitPayload)
    (hh : d.hdr = some h) (hx : xs ≠ []) (hl : d.written + xs.length = h.payloadLength) :
    feedBytes p n (xs ++ rest) d =
      (.emit h.opcode h.fin (if h.masked then applyMask (d.pbuf ++ xs) h.mask 0 else d.pbuf ++ xs) ::
        (feedBytes p n rest d.frameReset).1, (feedBytes p n rest d.frameReset).2) := by
  obtain ⟨ys, x, rfl⟩ : ∃ ys x, xs = ys ++ [x] := ⟨xs.dropLast, xs.getLast hx, (List.dropLast_append_getLast hx).symm⟩
  rw [List.append_assoc, feedBytes_payload_wait p n h ys _ d hp hh (by simp at hl; omega), List.singleton_append,
    feedBytes_ok (decodeByte_complete (h := h) (by exact hp) (by exact hh) (by simp [Decoder.written] at hl ⊢; omega))]
  simp [Decoder.frameReset]

end Sys2Proof.Machine
end

