-- ==== Sys2Proof/Laws/Ops.lean ====
section
/-! SUPPORT. One lemma for each shared operation that says all it can do: the dispatch check, the delivery of bytes, BUILD, the observation
and the step. Proofs cite these and do not unfold the operations. -/

namespace Sys2Proof.Machine

theorem whenConstructed_true {s : State} (h : s.constructed = true) (r : Result) : whenConstructed s r = r := by
  simp [whenConstructed, h]

theorem whenConstructed_false {s : State} (h : s.constructed = false) (r : Result) :
    whenConstructed s r = .next (s.respond .illegal) := by
  simp [whenConstructed, illegal, h]

/-- Delivery before construction. -/
theorem deliver_unconstructed {s : State} (h : s.constructed = false) (chunk : Bytes) :
    deliver chunk s = .next (s.respond .illegal) := whenConstructed_false h _

/-- Delivery of no bytes. -/
theorem deliver_nil {s : State} (h : s.constructed = true) : deliver [] s = .next (s.respond (.events [])) := by
  simp [deliver, whenConstructed_true h]

/-- Delivery to a live instance, of any bytes: the loop's events and the loop's decoder. -/
theorem deliver_live {s : State} (h : s.constructed = true) (hp : s.dec.phase ≠ .error) (chunk : Bytes) :
    deliver chunk s = .next { s with
      dec := (feedBytes s.params s.raiseCount chunk s.dec).2
      response := some (.events (feedBytes s.params s.raiseCount chunk s.dec).1)
      raiseCount :=
        if (feedBytes s.params s.raiseCount chunk s.dec).2.phase = .error then s.raiseCount + 1 else s.raiseCount } := by
  by_cases hc : chunk = []
  · subst hc
    simp [deliver_nil h, feedBytes, hp, State.respond]
  · simp [deliver, whenConstructed_true h, hc, hp]

/-- Delivery of bytes in ERROR. -/
theorem deliver_dead {s : State} (h : s.constructed = true) (hp : s.dec.phase = .error) {chunk : Bytes} (hc : chunk ≠ []) :
    deliver chunk s = .fault .feedAfterError := by
  simp [deliver, whenConstructed_true h, hc, hp]

/-- All that delivery can do. -/
theorem deliver_cases (chunk : Bytes) (s : State) :
    (s.constructed = false ∧ deliver chunk s = .next (s.respond .illegal)) ∨
    (s.constructed = true ∧ s.dec.phase = .error ∧ chunk = [] ∧ deliver chunk s = .next (s.respond (.events []))) ∨
    (s.constructed = true ∧ s.dec.phase = .error ∧ chunk ≠ [] ∧ deliver chunk s = .fault .feedAfterError) ∨
    (s.constructed = true ∧ s.dec.phase ≠ .error ∧ deliver chunk s = .next { s with
      dec := (feedBytes s.params s.raiseCount chunk s.dec).2
      response := some (.events (feedBytes s.params s.raiseCount chunk s.dec).1)
      raiseCount :=
        if (feedBytes s.params s.raiseCount chunk s.dec).2.phase = .error then s.raiseCount + 1 else s.raiseCount }) := by
  by_cases hc : s.constructed = true
  · by_cases hp : s.dec.phase = .error
    · by_cases hn : chunk = []
      · subst hn; exact .inr (.inl ⟨hc, hp, rfl, deliver_nil hc⟩)
      · exact .inr (.inr (.inl ⟨hc, hp, hn, deliver_dead hc hp hn⟩))
    · exact .inr (.inr (.inr ⟨hc, hp, deliver_live hc hp chunk⟩))
  · rw [Bool.not_eq_true] at hc
    exact .inl ⟨hc, deliver_unconstructed hc chunk⟩

/-- All that BUILD can do. -/
theorem build_cases (op : BitVec 4) (p : Bytes) (s : State) :
    (s.constructed = false ∧ build op p s = .next (s.respond .illegal)) ∨
    (s.constructed = true ∧ s.params.lenCeiling ≤ p.length ∧ build op p s = .next (s.respond (.err .unsupportedLength))) ∨
    (s.constructed = true ∧ p.length < s.params.lenCeiling ∧ s.cfgMasking = true ∧
      build op p s = .next (s.consumeDraw.respond (.frame (encodeFrame op p (some s.nextDraw))))) ∨
    (s.constructed = true ∧ p.length < s.params.lenCeiling ∧ s.cfgMasking = false ∧
      build op p s = .next (s.respond (.frame (encodeFrame op p none)))) := by
  cases hc : s.constructed with
  | false => exact .inl ⟨rfl, whenConstructed_false hc _⟩
  | true =>
    by_cases hl : s.params.lenCeiling ≤ p.length
    · exact .inr (.inl ⟨rfl, hl, by simp [build, whenConstructed_true hc, hl]⟩)
    · cases hm : s.cfgMasking with
      | true => exact .inr (.inr (.inl ⟨rfl, by omega, rfl, by simp [build, whenConstructed_true hc, hl, hm]⟩))
      | false => exact .inr (.inr (.inr ⟨rfl, by omega, rfl, by simp [build, whenConstructed_true hc, hl, hm]⟩))

theorem observe_next {c : Command} {t : State} {r : Response} (h : t.response = some r) :
    observe c (.next t) = .next { t with trace := t.trace ++ [(c, r)] } := by
  simp [observe, h]

/-- A wire instruction delivers its frame's bytes: what FEED does with them. -/
theorem exec_wire_eq_feed (op : BitVec 4) (f : Frame) (s : State) : exec (wireInstr op f) s = exec (.feed (f.bytes op)) s := by
  match op with
  | ⟨⟨n, h⟩⟩ => interval_cases n <;> rfl

/-- Every instruction answers: a next state with a response, the commands still pending and the observation as they were, or the fault of
R114. -/
theorem exec_answers (i : Instr) (s : State) :
    exec i s = .fault .feedAfterError ∨
    ∃ t r, exec i s = .next t ∧ t.response = some r ∧ t.pending = s.pending ∧ t.trace = s.trace ∧ t.params = s.params := by
  have hd : ∀ chunk, deliver chunk s = .fault .feedAfterError ∨
      ∃ t r, deliver chunk s = .next t ∧ t.response = some r ∧ t.pending = s.pending ∧ t.trace = s.trace ∧ t.params = s.params := by
    intro chunk
    rcases deliver_cases chunk s with ⟨_, h⟩ | ⟨_, _, _, h⟩ | ⟨_, _, _, h⟩ | ⟨_, _, h⟩
    · exact .inr ⟨_, _, h, rfl, rfl, rfl, rfl⟩
    · exact .inr ⟨_, _, h, rfl, rfl, rfl, rfl⟩
    · exact .inl h
    · exact .inr ⟨_, _, h, rfl, rfl, rfl, rfl⟩
  have hb : ∀ op p, ∃ t r, build op p s = .next t ∧ t.response = some r ∧ t.pending = s.pending ∧ t.trace = s.trace ∧
      t.params = s.params := by
    intro op p
    rcases build_cases op p s with ⟨_, h⟩ | ⟨_, _, h⟩ | ⟨_, _, _, h⟩ | ⟨_, _, _, h⟩ <;>
      exact ⟨_, _, h, rfl, rfl, rfl, rfl⟩
  cases i with
  | continuation f => exact hd _
  | text f => exact hd _
  | binary f => exact hd _
  | invalid3 f => exact hd _
  | invalid4 f => exact hd _
  | invalid5 f => exact hd _
  | invalid6 f => exact hd _
  | invalid7 f => exact hd _
  | close f => exact hd _
  | ping f => exact hd _
  | pong f => exact hd _
  | invalidB f => exact hd _
  | invalidC f => exact hd _
  | invalidD f => exact hd _
  | invalidE f => exact hd _
  | invalidF f => exact hd _
  | init m => exact .inr ⟨_, _, rfl, rfl, rfl, rfl, rfl⟩
  | feed chunk => exact hd _
  | buildCont p => exact .inr (hb _ _)
  | buildText p => exact .inr (hb _ _)
  | buildBinary p => exact .inr (hb _ _)
  | buildClose p => exact .inr (hb _ _)
  | buildPing p => exact .inr (hb _ _)
  | buildPong p => exact .inr (hb _ _)
  | mask b k n => exact .inr ⟨_, _, rfl, rfl, rfl, rfl, rfl⟩
  | status => exact .inr ⟨_, _, rfl, rfl, rfl, rfl, rfl⟩

/-- What a command fetches: what its word decodes to, or, for a FEED at the start of a frame, a wire instruction of the chunk's bytes. -/
theorem fetch_cases (s : State) (c : Command) :
    fetch s c = decodeCommand c ∨
    ∃ chunk i, decodeCommand c = .ok (.feed chunk) ∧ decode (.wire chunk) = .ok i ∧ fetch s c = .ok i := by
  unfold fetch
  split
  · rename_i chunk h
    split
    · split
      · rename_i i hi; exact .inr ⟨chunk, i, h, hi, rfl⟩
      · exact .inl h.symm
    · exact .inl h.symm
  · exact .inl rfl

theorem step_idle {s : State} (h : s.pending = []) : step s = .next s := by
  unfold step; rw [h]; rfl

theorem step_of_fetch {s : State} {c : Command} {rest : List Command} {i : Instr} (h : s.pending = c :: rest)
    (hf : fetch s c = .ok i) : step s = observe c (exec i { s with pending := rest }) := by
  unfold step; rw [h]; simp only [hf]

theorem step_of_reject {s : State} {c : Command} {rest : List Command} {r : Reject} (h : s.pending = c :: rest)
    (hf : fetch s c = .error r) : step s = observe c (illegal { s with pending := rest }) := by
  unfold step; rw [h]; simp only [hf]

end Sys2Proof.Machine
end

