-- ==== Sys2Proof/Laws/PerInstr.lean ====
section
/-! SUPPORT. The family `TableRow`: the first byte of every frame and the word of every command match the instruction's row of
spec/opcode_table.json. -/

namespace Sys2Proof.Laws

/-- A row's `mask` and `match`. -/
def rowOf : Instr → Nat × Nat
  | .continuation _ => (0x0F, 0x00)
  | .text _ => (0x0F, 0x01)
  | .binary _ => (0x0F, 0x02)
  | .invalid3 _ => (0x0F, 0x03)
  | .invalid4 _ => (0x0F, 0x04)
  | .invalid5 _ => (0x0F, 0x05)
  | .invalid6 _ => (0x0F, 0x06)
  | .invalid7 _ => (0x0F, 0x07)
  | .close _ => (0x0F, 0x08)
  | .ping _ => (0x0F, 0x09)
  | .pong _ => (0x0F, 0x0A)
  | .invalidB _ => (0x0F, 0x0B)
  | .invalidC _ => (0x0F, 0x0C)
  | .invalidD _ => (0x0F, 0x0D)
  | .invalidE _ => (0x0F, 0x0E)
  | .invalidF _ => (0x0F, 0x0F)
  | .init _ => (0xFFFE, 0x1000)
  | .feed _ => (0xFFFF, 0x2000)
  | .buildCont _ => (0xFFFF, 0x3000)
  | .buildText _ => (0xFFFF, 0x3100)
  | .buildBinary _ => (0xFFFF, 0x3200)
  | .buildClose _ => (0xFFFF, 0x3800)
  | .buildPing _ => (0xFFFF, 0x3900)
  | .buildPong _ => (0xFFFF, 0x3A00)
  | .mask _ _ _ => (0xFFFE, 0x4000)
  | .status => (0xFFFF, 0x5000)

/-- The bits that the table gives a row: a frame's byte 0, or a command's word. -/
def tableBits : Encoding → Nat
  | .wire (b :: _) => b.toNat
  | .wire [] => 0
  | .cmd c => c.word.toNat

/-- Byte 0 of a frame holds its opcode in its low four bits (R70). -/
theorem byte0_low (op : BitVec 4) (f : Frame) : (f.byte0 op).toNat &&& 0x0F = op.toNat := by
  have h : ∀ a b c d : Bool, ∀ o : BitVec 4,
      (bit a ++ bit b ++ bit c ++ bit d ++ o : Byte).toNat &&& 0x0F = o.toNat := by decide
  exact h ..

/-- A command's word, as its row of the table has it, with the F bit free (R80). -/
theorem commandWord_row (c o : BitVec 4) (f : Bool) :
    (commandWord c o f).toNat &&& 0xFFFE = c.toNat * 0x1000 + o.toNat * 0x100 := by
  revert c o f; decide

/-- A command's word, as its row of the table has it, where F is 0 (R80). -/
theorem commandWord_row_zero (c o : BitVec 4) :
    (commandWord c o false).toNat &&& 0xFFFF = c.toNat * 0x1000 + o.toNat * 0x100 := by
  revert c o; decide

namespace TableRow

/-- The bits match the row. -/
def Statement (i : Instr) : Prop := tableBits (encode i) &&& (rowOf i).1 = (rowOf i).2

theorem continuation (f : Frame) : Statement (.continuation f) := byte0_low _ f
theorem text (f : Frame) : Statement (.text f) := byte0_low _ f
theorem binary (f : Frame) : Statement (.binary f) := byte0_low _ f
theorem invalid3 (f : Frame) : Statement (.invalid3 f) := byte0_low _ f
theorem invalid4 (f : Frame) : Statement (.invalid4 f) := byte0_low _ f
theorem invalid5 (f : Frame) : Statement (.invalid5 f) := byte0_low _ f
theorem invalid6 (f : Frame) : Statement (.invalid6 f) := byte0_low _ f
theorem invalid7 (f : Frame) : Statement (.invalid7 f) := byte0_low _ f
theorem close (f : Frame) : Statement (.close f) := byte0_low _ f
theorem ping (f : Frame) : Statement (.ping f) := byte0_low _ f
theorem pong (f : Frame) : Statement (.pong f) := byte0_low _ f
theorem invalidB (f : Frame) : Statement (.invalidB f) := byte0_low _ f
theorem invalidC (f : Frame) : Statement (.invalidC f) := byte0_low _ f
theorem invalidD (f : Frame) : Statement (.invalidD f) := byte0_low _ f
theorem invalidE (f : Frame) : Statement (.invalidE f) := byte0_low _ f
theorem invalidF (f : Frame) : Statement (.invalidF f) := byte0_low _ f
theorem init (m : Bool) : Statement (.init m) := commandWord_row _ _ m
theorem feed (p : Bytes) : Statement (.feed p) := commandWord_row_zero _ _
theorem buildCont (p : Bytes) : Statement (.buildCont p) := commandWord_row_zero _ _
theorem buildText (p : Bytes) : Statement (.buildText p) := commandWord_row_zero _ _
theorem buildBinary (p : Bytes) : Statement (.buildBinary p) := commandWord_row_zero _ _
theorem buildClose (p : Bytes) : Statement (.buildClose p) := commandWord_row_zero _ _
theorem buildPing (p : Bytes) : Statement (.buildPing p) := commandWord_row_zero _ _
theorem buildPong (p : Bytes) : Statement (.buildPong p) := commandWord_row_zero _ _
theorem mask (b : Bytes) (k : Option Key) (n : Nat) : Statement (.mask b k n) := by
  cases k with
  | none => exact commandWord_row 4#4 0#4 false
  | some k => exact commandWord_row 4#4 0#4 true
theorem status : Statement .status := commandWord_row_zero _ _

end TableRow

end Sys2Proof.Laws
end

