-- ==== Sys2Proof/Tests/Slice0.lean ====
section
/-! SUPPORT. Tests of the model. Expected results are those of spec/95_test_vectors.md (named S, V-D, V-M, V-E, V-F, P as there) or read
by hand from the encodings of R70, R74, R80 and R81. Last, for each obligation with hypotheses, a witness that meets them. -/

namespace Sys2Proof.Tests

open Sys2Proof.Machine

/-! ### Helpers -/

/-- The parameters of the vectors: `LEN_CEILING` 2^53, `PAYLOAD_CAPACITY` 65537, `ENFORCE_CONTROL_LEN` false. -/
def vectorParams : Params := { lenCeiling := 9007199254740992, payloadCapacity := 65537, enforceControlLen := false }

/-- After INIT m, with the answers the random source will give. -/
def live (m : Bool) (draws : List Key) : State :=
  { State.reset with params := vectorParams, constructed := true, cfgMasking := m, draws := draws }

/-- `live false` with another capacity and control limit. -/
def limited (capacity : Nat) (enforce : Bool) : State :=
  { live false [] with params := { vectorParams with payloadCapacity := capacity, enforceControlLen := enforce } }

/-- In ERROR with `err_kind` 1. -/
def dead : State := { live false [] with dec := { Decoder.initial with phase := .error, errKind := some .rsvNonZero } }

/-- In AWAIT_PAYLOAD: a masked TEXT of two bytes, none or one of them received. -/
def waiting (pbuf : Bytes) : State :=
  { live false [] with dec := { Decoder.initial with
      phase := .awaitPayload, hdr := some ⟨true, 1#4, true, 2, 6, some ⟨1#8, 2#8, 3#8, 4#8⟩⟩, pbuf := pbuf } }

/-- The draw K of the encoder vectors. -/
def keyK : Key := ⟨0x37#8, 0xFA#8, 0x21#8, 0x3D#8⟩

def hello : Bytes := [0x48#8, 0x65#8, 0x6C#8, 0x6C#8, 0x6F#8]

/-- The state after one step on the command `c`. -/
def after (c : Command) (s : State) : Option State :=
  match step { s with pending := [c] } with
  | .next t => some t
  | .fault _ => none
  | .refused _ => none

/-- The response of one step. -/
def answer (c : Command) (s : State) : Option Response := (after c s).bind State.response

/-- The events of one FEED and the status word after it. -/
def fed (chunk : Bytes) (s : State) : Option (List Event × Word) :=
  (after (feedCommand chunk) s).map fun t => (((t.response.map Response.eventList).getD []), statusWord t)

/-- A command word without operands. -/
def bare (w : Word) : Command := { word := w, data := [], key := ⟨0#8, 0#8, 0#8, 0#8⟩, offset := 0 }

/-- A command word with data. -/
def withData (w : Word) (d : Bytes) : Command := { bare w with data := d }

/-- A MASK command with a key. -/
def maskCommand (k : Key) (offset : Nat) (d : Bytes) : Command := { word := 0x4001#16, data := d, key := k, offset := offset }

/-- An unmasked frame without payload bytes. -/
def plain (fin : Bool) (len : LenField) : Frame := ⟨fin, false, false, false, len, none, []⟩

/-! ### Well-formedness: each check and an ill-formed term it refuses -/

theorem test_wf_short_126_refused : Instr.wf (.text (plain true (.short 126#7))) = false := by decide
theorem test_wf_short_127_refused : Instr.wf (.close (plain true (.short 127#7))) = false := by decide
theorem test_wf_short_125_accepted : Instr.wf (.text (plain true (.short 125#7))) = true := by decide
theorem test_wf_payload_too_long_refused :
    Instr.wf (.invalid3 ⟨true, false, false, false, .ext16 1#16, none, [0#8, 0#8]⟩) = false := by decide
theorem test_wf_partial_payload_accepted :
    Instr.wf (.binary ⟨false, true, false, false, .ext64 2#64, some keyK, [0#8]⟩) = true := by decide

/-! ### Decoding, from words written out by the tables of R70, R74, R80, R81 -/

theorem test_decode_continuation : decodeTableWord 8 0b00000000 = some (.continuation (plain false (.short 0#7))) := by decide
theorem test_decode_text : decode (.wire [0b10000001#8, 0b00000010#8, 0x68#8, 0x69#8]) =
    .ok (.text ⟨true, false, false, false, .short 2#7, none, [0x68#8, 0x69#8]⟩) := by decide
theorem test_decode_binary_ext16_masked :
    decode (.wire [0b00000010#8, 0b11111110#8, 0x01#8, 0x02#8, 0x37#8, 0xFA#8, 0x21#8, 0x3D#8, 0x55#8]) =
    .ok (.binary ⟨false, false, false, false, .ext16 0x0102#16, some keyK, [0x55#8]⟩) := by decide
theorem test_decode_close_ext64 :
    decode (.wire [0b10001000#8, 0b01111111#8, 0x00#8, 0x20#8, 0x00#8, 0x00#8, 0x00#8, 0x00#8, 0x00#8, 0x01#8]) =
    .ok (.close (plain true (.ext64 0x0020000000000001#64))) := by decide
theorem test_decode_ping : decodeTableWord 8 0b10001001 = some (.ping (plain true (.short 0#7))) := by decide
theorem test_decode_pong : decode (.wire [0b10001010#8, 0b10000001#8, 1#8, 2#8, 3#8, 4#8, 0x40#8]) =
    .ok (.pong ⟨true, false, false, false, .short 1#7, some ⟨1#8, 2#8, 3#8, 4#8⟩, [0x40#8]⟩) := by decide
theorem test_decode_rsv : decodeTableWord 8 0b01000001 = some (.text ⟨false, true, false, false, .short 0#7, none, []⟩) ∧
    decodeTableWord 8 0b00100001 = some (.text ⟨false, false, true, false, .short 0#7, none, []⟩) ∧
    decodeTableWord 8 0b00010001 = some (.text ⟨false, false, false, true, .short 0#7, none, []⟩) := by decide
theorem test_decode_invalid_low :
    decodeTableWord 8 0b10000011 = some (.invalid3 (plain true (.short 0#7))) ∧
    decodeTableWord 8 0b00000100 = some (.invalid4 (plain false (.short 0#7))) ∧
    decodeTableWord 8 0b10000101 = some (.invalid5 (plain true (.short 0#7))) ∧
    decodeTableWord 8 0b00000110 = some (.invalid6 (plain false (.short 0#7))) ∧
    decodeTableWord 8 0b10000111 = some (.invalid7 (plain true (.short 0#7))) := by decide
theorem test_decode_invalid_high :
    decodeTableWord 8 0b10001011 = some (.invalidB (plain true (.short 0#7))) ∧
    decodeTableWord 8 0b00001100 = some (.invalidC (plain false (.short 0#7))) ∧
    decodeTableWord 8 0b10001101 = some (.invalidD (plain true (.short 0#7))) ∧
    decodeTableWord 8 0b00001110 = some (.invalidE (plain false (.short 0#7))) ∧
    decodeTableWord 8 0b10001111 = some (.invalidF (plain true (.short 0#7))) := by decide
theorem test_decode_init : decodeTableWord 16 0b0001000000000001 = some (.init true) ∧
    decodeTableWord 16 0b0001000000000000 = some (.init false) := by decide
theorem test_decode_feed : decodeCommand (withData 0b0010000000000000#16 hello) = .ok (.feed hello) := by decide
theorem test_decode_build :
    decodeCommand (withData 0b0011000000000000#16 hello) = .ok (.buildCont hello) ∧
    decodeCommand (withData 0b0011000100000000#16 hello) = .ok (.buildText hello) ∧
    decodeCommand (withData 0b0011001000000000#16 hello) = .ok (.buildBinary hello) ∧
    decodeCommand (withData 0b0011100000000000#16 hello) = .ok (.buildClose hello) ∧
    decodeCommand (withData 0b0011100100000000#16 hello) = .ok (.buildPing hello) ∧
    decodeCommand (withData 0b0011101000000000#16 hello) = .ok (.buildPong hello) := by decide
theorem test_decode_mask :
    decodeCommand (maskCommand keyK 3 hello) = .ok (.mask hello (some keyK) 3) ∧
    decodeCommand ⟨0b0100000000000000#16, hello, keyK, 3⟩ = .ok (.mask hello none 3) := by decide
theorem test_decode_status : decodeTableWord 16 0b0101000000000000 = some .status := by decide
theorem test_decode_rejects_frames : decode (.wire [0x81#8]) = .error .headerIncomplete ∧
    decode (.wire [0x81#8, 0x7E#8, 0x00#8]) = .error .headerIncomplete ∧
    decode (.wire [0x89#8, 0x00#8, 0x81#8]) = .error .bytesAfterFrame := by decide
/-- R82, an example of each item (0x8003 fails several). -/
theorem test_decode_rejects_words : decodeCommand (bare 0x6000#16) = .error .reservedClass ∧
    decodeCommand (bare 0x5002#16) = .error .reservedBits ∧ decodeCommand (bare 0x2100#16) = .error .opcNotZero ∧
    decodeCommand (bare 0x3300#16) = .error .notBuildable ∧ decodeCommand (bare 0x3101#16) = .error .flagNotZero ∧
    decodeTableWord 16 0x8003 = none := by decide

/-! ### Wire instructions and FEED (95_test_vectors.md sections 1 and 2) -/

/-- S1 and S2, with the wire instruction that the fetch finds in the FEED. -/
theorem test_text_S1 : fed ([0x81#8, 0x05#8] ++ hello) (live false []) = some ([.emit 1#4 true hello], 0x0008#16) := by decide
theorem test_text_S2 : fed [0x81#8, 0x85#8, 0x37#8, 0xFA#8, 0x21#8, 0x3D#8, 0x7F#8, 0x9F#8, 0x4D#8, 0x51#8, 0x58#8] (live true []) =
    some ([.emit 1#4 true hello], 0x000C#16) := by decide
/-- S4: two frames in one chunk. -/
theorem test_feed_S4 : fed [0x81#8, 0x03#8, 0x61#8, 0x62#8, 0x63#8, 0x89#8, 0x00#8] (live false []) =
    some ([.emit 1#4 true [0x61#8, 0x62#8, 0x63#8], .emit 9#4 true []], 0x0008#16) := by decide
/-- P1 step 4: a header that began in an earlier FEED. -/
theorem test_close_P1 :
    fed [0x02#8, 0x03#8, 0xE8#8] { live false [] with dec := { Decoder.initial with hbuf := [0x88#8] } } =
      some ([.emit 8#4 true [0x03#8, 0xE8#8]], 0x0008#16) := by decide
/-- V-D1, by the word of the opcode table placed after power-on (log 10). -/
theorem test_text_placed : ∃ t, step (State.reset.withFetchWord 8 0x81) = .next t ∧ t.response = some (.events [.emit 1#4 true []]) :=
  ⟨_, rfl, rfl⟩
/-- V-D20: the bytes after the error are not consumed. -/
theorem test_feed_V_D20 : fed [0x81#8, 0x01#8, 0x41#8, 0xC1#8, 0x00#8, 0x81#8, 0x00#8] (live false []) =
    some ([.emit 1#4 true [0x41#8], .error .rsvNonZero], 0x001A#16) := by decide
/-- V-D3 and V-D4. -/
theorem test_continuation_V_D3_D4 : fed [0x00#8, 0x00#8] (live false []) = some ([.emit 0#4 false []], 0x0008#16) ∧
    fed [0x80#8, 0x00#8] (live false []) = some ([.emit 0#4 true []], 0x0008#16) := by decide
/-- V-D12 and V-D24. -/
theorem test_binary_V_D12_D24 : fed [0x82#8, 0x7E#8, 0x00#8, 0x00#8] (live false []) = some ([.emit 2#4 true []], 0x0008#16) ∧
    fed [0x82#8, 0x84#8, 0xFF#8, 0xFF#8, 0xFF#8, 0xFF#8, 0x00#8, 0xFF#8, 0x0F#8, 0xF0#8] (live false []) =
      some ([.emit 2#4 true [0xFF#8, 0x00#8, 0xF0#8, 0x0F#8]], 0x0008#16) := by decide
/-- V-D14, V-D17 and V-D28: the ceiling and the capacity. -/
theorem test_binary_lengths :
    fed [0x82#8, 0x7F#8, 0x00#8, 0x20#8, 0#8, 0#8, 0#8, 0#8, 0#8, 0#8] (live false []) = some ([.error .unsupportedLength], 0x004A#16) ∧
    fed [0x82#8, 0x7F#8, 0x00#8, 0x1F#8, 0xFF#8, 0xFF#8, 0xFF#8, 0xFF#8, 0xFF#8, 0xFF#8] (live false []) =
      some ([.error .capacityExceeded], 0x006A#16) ∧
    fed [0x82#8, 0x05#8, 1#8, 2#8, 3#8, 4#8, 5#8] (limited 4 false) = some ([.error .capacityExceeded], 0x006A#16) ∧
    fed [0x82#8, 0x04#8, 1#8, 2#8, 3#8, 4#8] (limited 4 false) = some ([.emit 2#4 true [1#8, 2#8, 3#8, 4#8]], 0x0008#16) := by decide
/-- V-D5 and V-D6. -/
theorem test_close_V_D5_D6 : fed [0x88#8, 0x02#8, 0x03#8, 0xE8#8] (live false []) = some ([.emit 8#4 true [0x03#8, 0xE8#8]], 0x0008#16) ∧
    fed [0x08#8, 0x00#8] (live false []) = some ([.error .expectedFinal], 0x003A#16) := by decide
/-- V-D18, and V-D27 at its fourth byte, where the limit is enforced and where it is not. -/
theorem test_ping_V_D18_D27 : fed [0x89#8, 0x80#8, 0x11#8, 0x22#8, 0x33#8, 0x44#8] (live false []) = some ([.emit 9#4 true []], 0x0008#16) ∧
    fed [0x89#8, 0x7E#8, 0x00#8, 0x7E#8] (limited 65537 true) = some ([.error .controlFrameTooLong], 0x005A#16) ∧
    fed [0x89#8, 0x7E#8, 0x00#8, 0x7E#8] (live false []) = some ([], 0x0009#16) ∧
    fed [0x89#8, 0x7E#8, 0x00#8, 0x7D#8] (limited 65537 true) = some ([], 0x0009#16) := by decide
/-- V-D19 and the second of V-D11, with PONG for PING. -/
theorem test_pong_V_D19 : fed [0x8A#8, 0x80#8, 1#8, 2#8, 3#8, 4#8] (live false []) = some ([.emit 10#4 true []], 0x0008#16) ∧
    fed [0x0A#8, 0x80#8] (live false []) = some ([.error .expectedFinal], 0x003A#16) := by decide
/-- V-D8, each invalid opcode; V-D9 and V-D10, which check wins. -/
theorem test_invalid_low_V_D8 : fed [0x83#8, 0#8] (live false []) = some ([.error .invalidOpcode], 0x002A#16) ∧
    fed [0x84#8, 0#8] (live false []) = some ([.error .invalidOpcode], 0x002A#16) ∧
    fed [0x85#8, 0#8] (live false []) = some ([.error .invalidOpcode], 0x002A#16) ∧
    fed [0x86#8, 0#8] (live false []) = some ([.error .invalidOpcode], 0x002A#16) ∧
    fed [0x87#8, 0#8] (live false []) = some ([.error .invalidOpcode], 0x002A#16) := by decide
theorem test_invalid_high_V_D8 : fed [0x8B#8, 0#8] (live false []) = some ([.error .invalidOpcode], 0x002A#16) ∧
    fed [0x8C#8, 0#8] (live false []) = some ([.error .invalidOpcode], 0x002A#16) ∧
    fed [0x8D#8, 0#8] (live false []) = some ([.error .invalidOpcode], 0x002A#16) ∧
    fed [0x8E#8, 0#8] (live false []) = some ([.error .invalidOpcode], 0x002A#16) ∧
    fed [0x8F#8, 0#8] (live false []) = some ([.error .invalidOpcode], 0x002A#16) := by decide
theorem test_check_order_V_D7_D9_D10 : fed [0xA1#8, 0#8] (live false []) = some ([.error .rsvNonZero], 0x001A#16) ∧
    fed [0xF3#8, 0#8] (live false []) = some ([.error .rsvNonZero], 0x001A#16) ∧
    fed [0x0B#8, 0#8] (live false []) = some ([.error .invalidOpcode], 0x002A#16) := by decide
/-- P3 step 6 and V-D29: the fault, and the empty FEED. -/
theorem test_feed_in_error : step { dead with pending := [feedCommand [0x81#8, 0x00#8]] } = .fault .feedAfterError ∧
    fed [] dead = some ([], 0x001A#16) := ⟨rfl, by decide⟩

/-! ### MASK, BUILD, INIT, STATUS (95_test_vectors.md section 3) -/

/-- V-M2 and V-M3. -/
theorem test_mask_V_M2_M3 :
    answer (maskCommand ⟨1#8, 2#8, 3#8, 4#8⟩ 0 [0#8, 0#8, 0#8, 0#8, 0#8]) State.reset = some (.bytes [1#8, 2#8, 3#8, 4#8, 1#8]) ∧
    answer (maskCommand ⟨1#8, 2#8, 3#8, 4#8⟩ 2 [0xAA#8, 0xBB#8, 0#8, 0#8, 0#8]) dead =
      some (.bytes [0xAA#8, 0xBB#8, 1#8, 2#8, 3#8]) := by decide
/-- V-M4 (offset beyond the end) and V-M7. -/
theorem test_mask_V_M4_M7 :
    answer (maskCommand ⟨1#8, 2#8, 3#8, 4#8⟩ 5 [0xAA#8, 0xBB#8]) State.reset = some (.bytes [0xAA#8, 0xBB#8]) ∧
    answer (maskCommand keyK 1 hello) State.reset = some (.bytes [0x48#8, 0x52#8, 0x96#8, 0x4D#8, 0x52#8]) := by decide
/-- V-E13. -/
theorem test_build_cont_V_E13 : answer (withData 0x3000#16 [0x6C#8, 0x6F#8]) (live false []) =
    some (.frame [0x80#8, 0x02#8, 0x6C#8, 0x6F#8]) := by decide
/-- V-E12 and V-E20. -/
theorem test_build_text_V_E12_E20 :
    answer (withData 0x3100#16 hello) (live false []) = some (.frame ([0x81#8, 0x05#8] ++ hello)) ∧
    answer (withData 0x3100#16 hello) (live true [keyK]) =
      some (.frame [0x81#8, 0x85#8, 0x37#8, 0xFA#8, 0x21#8, 0x3D#8, 0x7F#8, 0x9F#8, 0x4D#8, 0x51#8, 0x58#8]) ∧
    answer (withData 0x3100#16 [0x78#8]) State.reset = some .illegal := by decide
/-- P2 step 2. -/
theorem test_build_binary_P2 :
    answer (withData 0x3200#16 [0x48#8, 0x69#8, 0x21#8]) (live true [⟨0xA1#8, 0xB2#8, 0xC3#8, 0xD4#8⟩]) =
    some (.frame [0x82#8, 0x83#8, 0xA1#8, 0xB2#8, 0xC3#8, 0xD4#8, 0xE9#8, 0xDB#8, 0xE2#8]) := by decide
/-- V-E14. -/
theorem test_build_close_V_E14 :
    answer (withData 0x3800#16 [0x03#8, 0xE8#8]) (live false []) = some (.frame [0x88#8, 0x02#8, 0x03#8, 0xE8#8]) ∧
    answer (withData 0x3800#16 [0x03#8, 0xE8#8]) (live true [⟨1#8, 2#8, 3#8, 4#8⟩]) =
      some (.frame [0x88#8, 0x82#8, 1#8, 2#8, 3#8, 4#8, 0x02#8, 0xEA#8]) := by decide
/-- V-E15: the masked one makes one draw. -/
theorem test_build_ping_V_E15 :
    answer (bare 0x3900#16) (live true [keyK]) = some (.frame [0x89#8, 0x80#8, 0x37#8, 0xFA#8, 0x21#8, 0x3D#8]) ∧
    (after (bare 0x3900#16) (live true [keyK])).map State.drawCount = some 1 ∧
    (after (bare 0x3900#16) (live false [keyK])).map State.drawCount = some 0 := by decide
/-- V-E16, and P3 step 7: BUILD works in ERROR. -/
theorem test_build_pong_V_E16_P3 :
    answer (withData 0x3A00#16 [1#8]) (live true [⟨0#8, 0#8, 0#8, 0#8⟩]) = some (.frame [0x8A#8, 0x81#8, 0#8, 0#8, 0#8, 0#8, 1#8]) ∧
    answer (bare 0x3A00#16) dead = some (.frame [0x8A#8, 0x00#8]) := by decide
/-- V-F3 and V-F4: INIT from power-on and from ERROR. -/
theorem test_init_V_F3_F4 : (after (bare 0x1001#16) State.reset).map statusWord = some 0x000C#16 ∧
    (after (bare 0x1000#16) dead).map statusWord = some 0x0008#16 := by decide
/-- V-F6: INIT drops a partial frame. -/
theorem test_init_V_F6 : (after (bare 0x1000#16) (waiting [5#8])).map State.dec = some Decoder.initial := by decide
/-- V-F1, V-F4. -/
theorem test_status_V_F1_F4 : answer (bare 0x5000#16) State.reset = some (.status 0x0000#16) ∧
    answer (bare 0x5000#16) dead = some (.status 0x001A#16) := by decide
/-- V-F2, V-F5 and V-E18. -/
theorem test_illegal_V_F2_F5 : answer (feedCommand [0x81#8, 0x00#8]) State.reset = some .illegal ∧
    answer (bare 0x0000#16) (live false []) = some .illegal ∧
    answer (bare 0x6000#16) (live false []) = some .illegal ∧
    answer (bare 0xF000#16) (live false []) = some .illegal ∧
    answer (bare 0x2100#16) (live false []) = some .illegal ∧
    answer (bare 0x2001#16) (live false []) = some .illegal ∧
    answer (bare 0x5002#16) (live false []) = some .illegal ∧
    answer (bare 0x1100#16) (live false []) = some .illegal ∧
    answer (bare 0x3300#16) (live false []) = some .illegal := by decide

/-! ### Witnesses: for each obligation with hypotheses, values that meet them -/

theorem live_fresh (m : Bool) (draws : List Key) : (live m draws).Fresh := ⟨rfl, rfl⟩

/-- A state with one command pending. -/
def ready (s : State) (c : Command) : State := { s with pending := [c] }

theorem witness_DecodeOfEncodeIsSame : Instr.wf (.text (plain true (.short 125#7))) = true ∧
    Instr.wf (.ping (plain true (.ext16 65535#16))) = true ∧
    Instr.wf (.invalidF ⟨false, true, true, true, .ext64 18446744073709551615#64, some keyK, [1#8]⟩) = true ∧
    Instr.wf (.mask [] none 7) = true := by decide

theorem witness_EncodeOfDecodedFrameIsSame :
    decode (.wire [0x88#8, 0x00#8]) = .ok (.close (plain true (.short 0#7))) := by decide

theorem witness_IllegalWordsAnswerIllegal :
    ∀ w ∈ [0x0000#16, 0x6000#16, 0x5002#16, 0x2100#16, 0x3300#16, 0x2001#16], (ready dead (bare w)).pending = [bare w] ∧ (bare w).word = w :=
  fun _ _ => ⟨rfl, rfl⟩

theorem witness_IllegalWordsAnswerIllegal_items :
    ((0x0000#16).extractLsb' 12 4).toNat = 0 ∧ 6 ≤ ((0x6000#16).extractLsb' 12 4).toNat ∧
    (0x5002#16).extractLsb' 1 7 ≠ 0#7 ∧ (0x5080#16).extractLsb' 1 7 ≠ 0#7 ∧
    ((0x2100#16).extractLsb' 12 4 ≠ 3#4 ∧ (0x2100#16).extractLsb' 8 4 ≠ 0#4) ∧
    ((0x3B00#16).extractLsb' 12 4 = 3#4 ∧ (0x3B00#16).extractLsb' 8 4 ∉ [0#4, 1#4, 2#4, 8#4, 9#4, 10#4]) ∧
    ((0x5001#16).getLsbD 0 = true ∧ (0x5001#16).extractLsb' 12 4 ∈ [2#4, 3#4, 5#4]) := by decide

theorem witness_StepRunsTheDecodedInstruction :
    (ready dead (bare 0x5000#16)).pending = [bare 0x5000#16] ∧ decodeCommand (bare 0x5000#16) = .ok .status ∧
    decodeCommand (feedCommand [0x81#8, 0x00#8]) = .ok (.feed [0x81#8, 0x00#8]) ∧
    decode (.wire [0x81#8, 0x00#8]) = .ok (.text (plain true (.short 0#7))) ∧
    (ready (live false []) (feedCommand [0x81#8, 0x00#8])).pending = [feedCommand [0x81#8, 0x00#8]] ∧
    (ready (live false []) (feedCommand [0x81#8, 0x00#8])).atFrameStart = true ∧ State.reset.pending = [] :=
  ⟨rfl, by decide, by decide, by decide, rfl, by decide, rfl⟩

theorem witness_WireInstructionIsFeedOfItsBytes : encode (.pong (plain true (.short 0#7))) = .wire [0x8A#8, 0x00#8] := by decide

theorem witness_StepAnswersOneCommand : (ready State.reset (bare 0xF000#16)).pending = [bare 0xF000#16] := rfl

theorem witness_StopsOnlyOnFeedAfterError :
    (ready dead (feedCommand [1#8])).pending = [feedCommand [1#8]] ∧ ¬ Conforming (ready dead (feedCommand [1#8])) (feedCommand [1#8]) ∧
    Conforming (ready dead (feedCommand [])) (feedCommand []) :=
  ⟨rfl, fun h => h ⟨rfl, rfl, rfl, by decide⟩, fun h => h.2.2.2 rfl⟩

theorem witness_InitTwiceIsInitOnce : ∃ t, exec (.init true) dead = .next t := ⟨_, rfl⟩

theorem witness_StatusWordLayout : State.reset.constructed = false ∧ dead.constructed = true := ⟨rfl, rfl⟩

theorem witness_ConstructedIsSetByInitAndKept : (∃ t, exec (.init false) State.reset = .next t) ∧
    (∃ t, step (ready (live true []) (bare 0x5000#16)) = .next t ∧ (live true []).constructed = true) ∧
    (∃ t, step (ready State.reset (bare 0x1000#16)) = .next t ∧ State.reset.constructed = false ∧ t.constructed = true) :=
  ⟨⟨_, rfl⟩, ⟨_, rfl, rfl⟩, ⟨_, rfl, rfl, rfl⟩⟩

theorem witness_UnspecifiedPowerOnStateIsNotRead : State.reset.constructed = false := rfl

theorem witness_OtherCommandsKeepTheInstance :
    (∃ t, (10#4, .buildPong hello) ∈ buildRows hello ∧ exec (.buildPong hello) (live true []) = .next t) ∧
    (∃ t, exec (.mask hello (some keyK) 2) dead = .next t) ∧ (∃ t, exec .status dead = .next t) ∧
    (∃ t, exec (.feed []) dead = .next t) :=
  ⟨⟨_, by decide, rfl⟩, ⟨_, rfl⟩, ⟨_, rfl⟩, ⟨_, rfl⟩⟩

theorem witness_FeedKeepsAllButTheDecoder :
    (∃ t, exec (.feed [0x81#8]) (live false []) = .next t) ∧
    (∃ t, (3#4, .invalid3 (plain true (.short 0#7))) ∈ wireRows (plain true (.short 0#7)) ∧
      exec (.invalid3 (plain true (.short 0#7))) (live false []) = .next t) :=
  ⟨⟨_, rfl⟩, ⟨_, by decide, rfl⟩⟩

theorem witness_ParametersAndMaskingAreKept : ∃ t, step (ready dead (bare 0x1001#16)) = .next t ∧ t.cfgMasking = true := ⟨_, rfl, rfl⟩

/-- One that draws and two that do not. -/
theorem witness_OnlyMaskedBuildDraws :
    (∃ t, step (ready (live true [keyK]) (bare 0x3900#16)) = .next t ∧ t.drawCount = 1) ∧
    (∃ t, step (ready (live false [keyK]) (bare 0x3900#16)) = .next t ∧ t.drawCount = 0) ∧
    (∃ t, step (ready (live true [keyK]) (bare 0x4000#16)) = .next t ∧ t.drawCount = 0) :=
  ⟨⟨_, rfl, rfl⟩, ⟨_, rfl, rfl⟩, ⟨_, rfl, rfl⟩⟩

/-- A byte below the offset, at it, and the last one. -/
theorem witness_MaskLaneLaw : ∃ out, exec (.mask hello (some keyK) 2) dead = .next { dead with response := some (.bytes out) } ∧
    1 < hello.length ∧ 2 < out.length ∧ 4 < out.length :=
  ⟨_, rfl, by decide, by decide, by decide⟩

theorem witness_MaskIsAnInvolution : ∃ t out, exec (.mask hello (some keyK) 1) dead = .next t ∧ t.response = some (.bytes out) :=
  ⟨_, _, rfl, rfl⟩

/-- The least and the greatest offset. -/
theorem witness_MaskShiftLaw : 0 ≤ hello.length ∧ 5 ≤ hello.length := by decide

/-- The last length of each form, and the first of the next (R162). -/
theorem witness_BuildUnmaskedFrame : ∀ n ∈ [0, 125, 126, 65535, 65536], (live false []).constructed = true ∧
    (live false []).cfgMasking = false ∧ (List.replicate n 0xAB#8).length < (live false []).params.lenCeiling := by
  intro n hn
  refine ⟨rfl, rfl, ?_⟩
  rw [List.length_replicate]
  revert n; decide

theorem witness_BuildMaskedFrame : ∀ n ∈ [0, 125, 126, 65535, 65536], (live true []).constructed = true ∧
    (live true []).cfgMasking = true ∧ (List.replicate n 0xAB#8).length < (live true []).params.lenCeiling := by
  intro n hn
  refine ⟨rfl, rfl, ?_⟩
  rw [List.length_replicate]
  revert n; decide

/-- V-E19, at the ceiling itself. -/
theorem witness_BuildOverlongIsErr : (live true []).constructed = true ∧
    (live true []).params.lenCeiling ≤ (List.replicate 9007199254740992 0xAB#8).length := by
  refine ⟨rfl, ?_⟩
  rw [List.length_replicate]
  exact Nat.le_refl _

theorem witness_BuiltFrameSize : ∃ t bytes, (2#4, .buildBinary hello) ∈ buildRows hello ∧
    exec (.buildBinary hello) (live true [keyK]) = .next t ∧ t.response = some (.frame bytes) :=
  ⟨_, _, by decide, rfl, rfl⟩

theorem witness_BuildIgnoresTheDecoder : (8#4, .buildClose hello) ∈ buildRows hello := by decide

theorem witness_RsvBitsRaise : (live false []).Fresh ∧ ¬ (⟨true, false, false, true, .short 0#7, none, []⟩ : Frame).rsvClear :=
  ⟨live_fresh _ _, by simp [Frame.rsvClear]⟩

theorem witness_InvalidOpcodesRaise : (live false []).Fresh ∧ (plain false (.short 0#7)).rsvClear ∧
    (15#4, .invalidF (plain false (.short 0#7))) ∈ invalidRows (plain false (.short 0#7)) :=
  ⟨live_fresh _ _, ⟨rfl, rfl, rfl⟩, by decide⟩

theorem witness_ControlWithoutFinRaises : (live false []).Fresh ∧ (plain false (.short 0#7)).rsvClear ∧
    (plain false (.short 0#7)).fin = false :=
  ⟨live_fresh _ _, ⟨rfl, rfl, rfl⟩, rfl⟩

/-- At the ceiling itself, for a data opcode and for a control opcode (V-D14). -/
theorem witness_OverlongFrameRaises : (live false []).Fresh ∧ (plain true (.ext64 9007199254740992#64)).rsvClear ∧
    (live false []).params.lenCeiling ≤ (9007199254740992#64).toNat ∧
    (2#4, .binary (plain true (.ext64 9007199254740992#64))) ∈ validRows (plain true (.ext64 9007199254740992#64)) ∧
    (controlOpcode 9#4 = true → (plain true (.ext64 9007199254740992#64)).fin = true) :=
  ⟨live_fresh _ _, ⟨rfl, rfl, rfl⟩, by decide, by decide, fun _ => rfl⟩

/-- The same length in the 64-bit form, masked: the tenth byte raises, before the key. -/
theorem witness_LongControlFrameRaises_ext64 : (limited 65537 true).Fresh ∧ (limited 65537 true).params.enforceControlLen = true ∧
    (⟨true, false, false, false, .ext64 126#64, some keyK, []⟩ : Frame).wf = true ∧
    (⟨true, false, false, false, .ext64 126#64, some keyK, []⟩ : Frame).rsvClear ∧ 125 < (LenField.ext64 126#64).value ∧
    (LenField.ext64 126#64).value < (limited 65537 true).params.lenCeiling :=
  ⟨⟨rfl, rfl⟩, rfl, by decide, ⟨rfl, rfl, rfl⟩, by decide, by decide⟩

/-- V-D27: 126, the first length above the limit. -/
theorem witness_LongControlFrameRaises : (limited 65537 true).Fresh ∧ (limited 65537 true).params.enforceControlLen = true ∧
    (plain true (.ext16 126#16)).wf = true ∧ (plain true (.ext16 126#16)).rsvClear ∧ (plain true (.ext16 126#16)).fin = true ∧
    125 < (plain true (.ext16 126#16)).len.value ∧ (plain true (.ext16 126#16)).len.value < (limited 65537 true).params.lenCeiling :=
  ⟨⟨rfl, rfl⟩, rfl, by decide, ⟨rfl, rfl, rfl⟩, rfl, by decide, by decide⟩

/-- A masked frame: its last header byte is its last key byte. -/
theorem witness_OverCapacityFrameRaises_masked : (limited 4 false).Fresh ∧
    (⟨true, false, false, false, .short 5#7, some keyK, []⟩ : Frame).wf = true ∧
    (⟨true, false, false, false, .short 5#7, some keyK, []⟩ : Frame).rsvClear ∧
    (LenField.short 5#7).value < (limited 4 false).params.lenCeiling ∧
    (limited 4 false).params.payloadCapacity < (LenField.short 5#7).value ∧
    ((limited 4 false).params.enforceControlLen = true → (LenField.short 5#7).value ≤ 125) :=
  ⟨⟨rfl, rfl⟩, by decide, ⟨rfl, rfl, rfl⟩, by decide, by decide, fun _ => by decide⟩

/-- V-D28: capacity 4 and length 5; V-D17: the largest length below the ceiling. -/
theorem witness_OverCapacityFrameRaises : (limited 4 true).Fresh ∧ (plain true (.short 5#7)).wf = true ∧
    (plain true (.short 5#7)).rsvClear ∧ (plain true (.short 5#7)).len.value < (limited 4 true).params.lenCeiling ∧
    (limited 4 true).params.payloadCapacity < (plain true (.short 5#7)).len.value ∧
    (controlOpcode 9#4 = true → (plain true (.short 5#7)).fin = true) ∧
    ((limited 4 true).params.enforceControlLen = true → controlOpcode 9#4 = true → (plain true (.short 5#7)).len.value ≤ 125) ∧
    (plain true (.ext64 9007199254740991#64)).len.value < (live false []).params.lenCeiling ∧
    (live false []).params.payloadCapacity < (plain true (.ext64 9007199254740991#64)).len.value :=
  ⟨⟨rfl, rfl⟩, by decide, ⟨rfl, rfl, rfl⟩, by decide, by decide, fun _ => rfl, fun _ _ => by decide, by decide, by decide⟩

/-- A FEED that raises and one that does not. -/
theorem witness_ErrorEventIsLastAndOnly : (live false []).constructed = true ∧ (live false []).dec.phase ≠ .error ∧
    (∃ t, exec (.feed [0xC1#8, 0#8]) (live false []) = .next t ∧ t.dec.phase = .error) ∧
    (∃ t, exec (.feed [0x81#8, 0#8]) (live false []) = .next t ∧ t.dec.phase ≠ .error) :=
  ⟨rfl, by decide, ⟨_, rfl, rfl⟩, ⟨_, rfl, by decide⟩⟩

theorem witness_BytesAfterAnErrorAreNotConsumed : (live false []).constructed = true ∧ (live false []).dec.phase ≠ .error ∧
    ∃ t, exec (.feed [0x08#8, 0#8]) (live false []) = .next t ∧ t.dec.phase = .error :=
  ⟨rfl, by decide, ⟨_, rfl, rfl⟩⟩

/-- INIT, and an instruction that is not INIT. -/
theorem witness_OnlyInitLeavesError : dead.constructed = true ∧ dead.dec.phase = .error ∧
    (∃ t, exec (.init true) dead = .next t) ∧ (∃ t, exec (.buildText hello) dead = .next t) :=
  ⟨rfl, rfl, ⟨_, rfl⟩, ⟨_, rfl⟩⟩

theorem witness_DeadDecoderStateIsNotRead : dead.constructed = true ∧ dead.dec.phase = .error := ⟨rfl, rfl⟩

theorem witness_EmptyFeedIsNoOp : dead.constructed = true ∧ (waiting []).constructed = true := ⟨rfl, rfl⟩

theorem witness_FeedCompletesUnlessDead : (waiting [5#8]).constructed = true ∧ (waiting [5#8]).dec.phase ≠ .error ∧
    dead.constructed = true ∧ dead.dec.phase = .error ∧ [1#8] ≠ [] :=
  ⟨rfl, by decide, rfl, rfl, by decide⟩

/-- A masked control frame at the control limit's safe side, and an empty frame in a longer form than it needs (R77). -/
theorem witness_WholeFrameIsEmitted : ∀ f ∈ [(⟨true, false, false, false, .short 1#7, some keyK, [9#8]⟩ : Frame), plain true (.ext64 0#64)],
    (limited 1 true).Fresh ∧ f.wf = true ∧ f.rsvClear ∧ f.payload.length = f.len.value ∧
      (9#4, .ping f) ∈ validRows f ∧ (controlOpcode 9#4 = true → f.fin = true) ∧ f.lengthOk (limited 1 true).params 9#4 := by
  intro f hf
  refine ⟨⟨rfl, rfl⟩, ?_⟩
  simp only [List.mem_cons, List.not_mem_nil, or_false] at hf
  rcases hf with rfl | rfl
  · exact ⟨by decide, ⟨rfl, rfl, rfl⟩, rfl, by decide, fun _ => rfl, by decide, fun _ _ => by decide, by decide⟩
  · exact ⟨by decide, ⟨rfl, rfl, rfl⟩, rfl, by decide, fun _ => rfl, by decide, fun _ _ => by decide, by decide⟩

/-- No payload byte, at the largest capacity. -/
theorem witness_PartialFrameWaits : (live false []).Fresh ∧ (plain false (.ext64 65537#64)).wf = true ∧
    (plain false (.ext64 65537#64)).rsvClear ∧ (plain false (.ext64 65537#64)).payload.length < (plain false (.ext64 65537#64)).len.value ∧
    (controlOpcode 1#4 = true → (plain false (.ext64 65537#64)).fin = true) ∧
    (plain false (.ext64 65537#64)).lengthOk (live false []).params 1#4 :=
  ⟨live_fresh _ _, by decide, ⟨rfl, rfl, rfl⟩, by decide, fun h => absurd h (by decide), by decide, fun _ h => absurd h (by decide), by decide⟩

/-- The byte that is stored and the byte that completes. -/
theorem witness_PayloadByteStoresOrCompletes : ∀ pb ∈ [[], [5#8]], ∃ h, (waiting pb).constructed = true ∧
    (waiting pb).dec.phase = .awaitPayload ∧ (waiting pb).dec.hdr = some h ∧ (waiting pb).dec.written < h.payloadLength ∧
    h.mask.isSome = h.masked := by
  intro pb hp
  refine ⟨_, rfl, rfl, rfl, ?_, rfl⟩
  revert pb; decide

theorem witness_FirstByteRaisesNothing : (live false []).Fresh := live_fresh _ _

/-- The least and the greatest lengths of the three clauses, for these parameters. -/
theorem witness_HeaderBytesAreResolved : (live false []).Fresh ∧
    (0 < (0x00#8).toNat * 2 ^ 8 + (0x01#8).toNat ∧ (0xFF#8).toNat * 2 ^ 8 + (0xFF#8).toNat ≤ (live false []).params.payloadCapacity) ∧
    (0 < 65537 ∧ 65537 ≤ (live false []).params.payloadCapacity ∧ 65537 < (live false []).params.lenCeiling ∧
      65537 = (0#8).toNat * 2 ^ 56 + (0#8).toNat * 2 ^ 48 + (0#8).toNat * 2 ^ 40 + (0#8).toNat * 2 ^ 32 + (0#8).toNat * 2 ^ 24 +
        (1#8).toNat * 2 ^ 16 + (0#8).toNat * 2 ^ 8 + (1#8).toNat) ∧
    (0 < 125 ∧ 125 ≤ 125 ∧ 125 ≤ (live false []).params.payloadCapacity) :=
  ⟨live_fresh _ _, by decide, by decide, by decide⟩

/-- A masked frame with a 64-bit length over the capacity: no byte of the header, and all but its last. -/
theorem witness_PartialHeaderWaits : ∀ n ∈ [0, 13], ∃ f : Frame, f.key = some keyK ∧ (live false []).Fresh ∧ f.wf = true ∧ f.rsvClear ∧
    f.len.value < (live false []).params.lenCeiling ∧ n < hsize f.byte1 ∧ (2#4, .binary f) ∈ validRows f ∧
    (controlOpcode 2#4 = true → f.fin = true) ∧
    ((live false []).params.enforceControlLen = true → controlOpcode 2#4 = true → f.len.value ≤ 125) := by
  intro n hn
  refine ⟨⟨true, false, false, false, .ext64 65538#64, some keyK, []⟩, rfl, live_fresh _ _, by decide, ⟨rfl, rfl, rfl⟩, by decide, ?_,
    by decide, fun _ => rfl, fun h => absurd h (by decide)⟩
  revert n; decide

theorem witness_DecoderIgnoresMasking : ∃ t, exec (.feed [0x81#8, 0x01#8]) (live true []) = .next t := ⟨_, rfl⟩

theorem witness_ChunkInvariance : (waiting []).constructed = true ∧ (waiting []).dec.phase ≠ .error := ⟨rfl, by decide⟩

/-- A control opcode where the limit is enforced, at the limit. -/
theorem witness_BuildThenFeedRoundTrips : (limited 125 true).constructed = true ∧ (limited 125 true).params.Legal ∧
    (List.replicate 125 7#8).length < (limited 125 true).params.lenCeiling ∧ (limited 125 true).Fresh ∧
    (List.replicate 125 7#8).length ≤ (limited 125 true).params.payloadCapacity ∧
    ((limited 125 true).params.enforceControlLen = true → controlOpcode 10#4 = true → (List.replicate 125 7#8).length ≤ 125) :=
  ⟨rfl, by decide, by rw [List.length_replicate]; decide, ⟨rfl, rfl⟩, Nat.le_of_eq List.length_replicate,
    fun _ _ => Nat.le_of_eq List.length_replicate⟩

/-- A state in the middle of a payload, and the step that completes it. -/
theorem witness_StepKeepsTheInvariant : (ready (waiting [5#8]) (feedCommand [6#8])).Inv ∧
    ∃ t, step (ready (waiting [5#8]) (feedCommand [6#8])) = .next t ∧ t.dec = Decoder.initial := by
  refine ⟨⟨by decide, by decide, by decide, fun h => absurd h (by decide), fun _ => ⟨rfl, _, rfl, ?_, by decide⟩⟩, _, rfl, rfl⟩
  exact ⟨by decide, by decide, by decide, ⟨0, by decide⟩, by decide, by decide, by decide⟩

end Sys2Proof.Tests
end

section
/-! PROOFS. The family of 00_scope.md: what one step does with its command (R12, R13), and what it leaves unchanged (R7 to R11, R24). -/

namespace Sys2Proof

/-! ### The bytes a decoded frame came from -/

theorem lenFieldOf_wf (n : BitVec 7) (ext : Bytes) : (lenFieldOf n ext).wf = true := by
  unfold lenFieldOf
  split
  · simpa [LenField.wf]
  · split <;> rfl

theorem lenFieldOf_len7 (n : BitVec 7) (ext : Bytes) : (lenFieldOf n ext).len7 = n := by
  unfold lenFieldOf
  split
  · rfl
  · split <;> simp only [LenField.len7] <;> bv_omega

/-- A length field is written as the extension bytes it was read from. -/
theorem ext_lenFieldOf {n : BitVec 7} {ext : Bytes} (h : ext.length = extSize n) : (lenFieldOf n ext).ext = ext := by
  have hlt := beNat_lt ext
  have hsame := beBytes_beNat ext
  by_cases h1 : n.toNat ≤ 125
  · have hnil : ext = [] := by simpa [extSize, h1] using h
    simp [lenFieldOf, LenField.ext, h1, hnil]
  · by_cases h2 : n.toNat = 126
    · have hlen : ext.length = 2 := by simpa [extSize, h2] using h
      rw [hlen] at hlt hsame
      simp [lenFieldOf, LenField.ext, h2, Nat.mod_eq_of_lt (show beNat ext < 65536 from hlt), hsame]
    · have hlen : ext.length = 8 := by simpa [extSize, h1, h2] using h
      rw [hlen] at hlt hsame
      simp [lenFieldOf, LenField.ext, h1, h2, Nat.mod_eq_of_lt (show beNat ext < 18446744073709551616 from hlt), hsame]

/-- The key and the body, as the decoder cuts them, are the bytes after the length field (R70, R73). -/
theorem key_and_body {masked : Bool} {s : Bytes} (h : masked = true → 4 ≤ s.length) :
    (if masked then keyOf (s.take 4) else none).isSome = masked ∧
      keyBytes (if masked then keyOf (s.take 4) else none) ++ (if masked then s.drop 4 else s) = s := by
  cases masked with
  | false => exact ⟨rfl, rfl⟩
  | true =>
    obtain ⟨k, hk, hb⟩ := keyOf_four (s := s.take 4) (by simp [h rfl])
    simp [hk, hb]

/-- A frame read from the front of a stream is well-formed, and the stream is its bytes and what the decoder left (R70, R79). -/
theorem decodeFrame_ok {bytes rest : Bytes} {i : Instr} (h : decodeFrame bytes = .ok (i, rest)) :
    ∃ op f, i = wireInstr op f ∧ f.wf = true ∧ bytes = f.bytes op ++ rest := by
  match bytes with
  | [] | [_] => cases h
  | b0 :: b1 :: tail =>
    simp only [decodeFrame] at h
    split at h
    · cases h
    next hlen =>
      cases h
      have hext : (tail.take (extSize (len7Of b1))).length = extSize (len7Of b1) := by
        simp [hsize] at hlen ⊢; omega
      obtain ⟨hkey, hbody⟩ := key_and_body (masked := maskedOf b1) (s := tail.drop (extSize (len7Of b1))) (by
        intro hm; simp [hsize, hm] at hlen ⊢; omega)
      refine ⟨_, _, rfl, ?_, ?_⟩
      · simp [Frame.wf, lenFieldOf_wf]
      · simp only [Frame.bytes, Frame.byte0, Frame.byte1, hkey, lenFieldOf_len7, ext_lenFieldOf hext, byte0_fields,
          byte1_fields, List.cons_append, List.append_assoc, List.take_append_drop, hbody]

/-- Bytes that decode to a wire instruction are the bytes of its frame (R70, R79). -/
theorem decode_wire_ok {bytes : Bytes} {i : Instr} (h : decode (.wire bytes) = .ok i) :
    ∃ op f, i = wireInstr op f ∧ f.wf = true ∧ bytes = f.bytes op := by
  simp only [decode] at h
  split at h
  next heq => cases h; simpa using decodeFrame_ok heq
  · cases h
  · cases h

end Sys2Proof

namespace Sys2Proof.Machine

/-! ### What a step does -/

/-- The wire instruction that bytes decode to does what FEED does with them. -/
theorem exec_decoded_wire {bytes : Bytes} {i : Instr} (h : decode (.wire bytes) = .ok i) (s : State) :
    exec i s = exec (.feed bytes) s := by
  obtain ⟨op, f, rfl, -, rfl⟩ := decode_wire_ok h
  exact exec_wire_eq_feed op f s

/-- At the start of a frame, a FEED of the bytes of one frame is fetched as that frame's instruction. -/
theorem fetch_wire {s : State} {c : Command} {chunk : Bytes} {i : Instr} (hc : decodeCommand c = .ok (.feed chunk))
    (hw : decode (.wire chunk) = .ok i) (hs : s.atFrameStart = true) : fetch s c = .ok i := by
  simp only [fetch, hc, hs, hw, if_true]

/-- A step runs what its command's word decodes to, even where it fetches a wire instruction. -/
theorem step_of_decode {s : State} {c : Command} {rest : List Command} {i : Instr} (h : s.pending = c :: rest)
    (hi : decodeCommand c = .ok i) : step s = observe c (exec i { s with pending := rest }) := by
  rcases fetch_cases s c with hf | ⟨chunk, j, hc, hj, hf⟩
  · exact step_of_fetch h (hf.trans hi)
  · obtain rfl : Instr.feed chunk = i := Except.ok.inj (hc.symm.trans hi)
    rw [step_of_fetch h hf, exec_decoded_wire hj]

/-- A step on a word that is no command answers `Illegal` (R182). -/
theorem step_of_undecodable {s : State} {c : Command} {rest : List Command} {e : Reject} (h : s.pending = c :: rest)
    (he : decodeCommand c = .error e) : step s = observe c (illegal { s with pending := rest }) := by
  rcases fetch_cases s c with hf | ⟨chunk, j, hc, -, -⟩
  · exact step_of_reject h (hf.trans he)
  · cases hc.symm.trans he

/-- All that a step can do with its command: the fault of R114, or a next state with the response observed. That state is, but for the
observation, what the instruction answers, or the `Illegal` answer to a word that is no command. -/
theorem step_cases {s : State} {c : Command} {rest : List Command} (h : s.pending = c :: rest) :
    step s = .fault .feedAfterError ∨
    ∃ u r, step s = .next { u with trace := s.trace ++ [(c, r)] } ∧ u.response = some r ∧ u.pending = rest ∧
      u.params = s.params ∧
      ((∃ i, decodeCommand c = .ok i ∧ exec i { s with pending := rest } = .next u) ∨
       ((∀ i, decodeCommand c ≠ .ok i) ∧ u = { s with pending := rest }.respond .illegal)) := by
  cases hd : decodeCommand c with
  | error e =>
    have hs := step_of_undecodable h hd
    exact .inr ⟨_, _, hs, rfl, rfl, rfl, .inr ⟨nofun, rfl⟩⟩
  | ok i =>
    have hs := step_of_decode h hd
    rcases exec_answers i { s with pending := rest } with hf | ⟨u, r, hu, hr, hp, ht, hparams⟩
    · exact .inl (by rw [hs, hf]; rfl)
    · exact .inr ⟨u, r, by rw [hs, hu, observe_next hr, ht], hr, hp, hparams, .inl ⟨i, rfl, hu⟩⟩

/-! ### What an instruction does -/

/-- The instruction is a BUILD with this payload (R170 to R175). -/
def Builds (p : Bytes) (i : Instr) : Prop := ∃ r ∈ buildRows p, i = r.2

/-- Every instruction is INIT, a BUILD, a delivery of bytes, or one that only answers. -/
theorem exec_cases (i : Instr) (s : State) :
    (∃ m, i = .init m ∧ exec i s = .next ((s.construct m).respond .done)) ∨
    (∃ p op, Builds p i ∧ exec i s = build op p s) ∨
    ((∀ p, ¬ Builds p i) ∧ ∃ chunk, exec i s = deliver chunk s) ∨
    ((∀ p, ¬ Builds p i) ∧ ∃ r, exec i s = .next (s.respond r)) := by
  cases i with
  | init m => exact .inl ⟨m, rfl, rfl⟩
  | buildCont p => exact .inr (.inl ⟨p, 0#4, by simp [Builds, buildRows], rfl⟩)
  | buildText p => exact .inr (.inl ⟨p, 1#4, by simp [Builds, buildRows], rfl⟩)
  | buildBinary p => exact .inr (.inl ⟨p, 2#4, by simp [Builds, buildRows], rfl⟩)
  | buildClose p => exact .inr (.inl ⟨p, 8#4, by simp [Builds, buildRows], rfl⟩)
  | buildPing p => exact .inr (.inl ⟨p, 9#4, by simp [Builds, buildRows], rfl⟩)
  | buildPong p => exact .inr (.inl ⟨p, 10#4, by simp [Builds, buildRows], rfl⟩)
  | mask b k n => exact .inr (.inr (.inr ⟨by simp [Builds, buildRows], _, rfl⟩))
  | status => exact .inr (.inr (.inr ⟨by simp [Builds, buildRows], _, rfl⟩))
  -- FEED and the wire instructions
  | _ => exact .inr (.inr (.inl ⟨by simp [Builds, buildRows], _, rfl⟩))

theorem buildInstr_ok {opc : BitVec 4} {p : Bytes} {i : Instr} (h : buildInstr opc p = .ok i) : Builds p i := by
  unfold buildInstr at h
  split at h <;> cases h <;> simp [Builds, buildRows]

/-- The payload of a BUILD is its command's data (R81). -/
theorem builds_data_of_decode {c : Command} {p : Bytes} {i : Instr} (h : decodeCommand c = .ok i) (hb : Builds p i) :
    Builds c.data i := by
  unfold decodeCommand decodeFields at h
  split at h
  · cases h
  · split at h
    case h_3 =>
      split at h
      · cases h
      · exact buildInstr_ok h
    case h_6 => cases h
    -- INIT, FEED, MASK and STATUS are no BUILD
    all_goals split_ifs at h <;> cases h <;> simp [Builds, buildRows] at hb

/-- A delivery of bytes keeps `cfg_masking` (R24) and draws nothing (R165). -/
theorem deliver_keeps {chunk : Bytes} {s t : State} (h : deliver chunk s = .next t) :
    t.cfgMasking = s.cfgMasking ∧ t.drawCount = s.drawCount ∧ t.draws = s.draws := by
  rcases deliver_cases chunk s with ⟨_, hd⟩ | ⟨_, _, _, hd⟩ | ⟨_, _, _, hd⟩ | ⟨_, _, hd⟩ <;> cases hd.symm.trans h <;>
    exact ⟨rfl, rfl, rfl⟩

/-- BUILD reads `cfg_masking` and does not write it (R24, R160). -/
theorem build_cfgMasking {op : BitVec 4} {p : Bytes} {s t : State} (h : build op p s = .next t) :
    t.cfgMasking = s.cfgMasking := by
  rcases build_cases op p s with ⟨_, hb⟩ | ⟨_, _, hb⟩ | ⟨_, _, _, hb⟩ | ⟨_, _, _, hb⟩ <;> cases hb.symm.trans h <;> rfl

/-- An instruction that answers keeps `cfg_masking` (R24), unless it is INIT. -/
theorem exec_cfgMasking {i : Instr} {s t : State} (h : exec i s = .next t) :
    t.cfgMasking = s.cfgMasking ∨ ∃ m, i = .init m ∧ t.cfgMasking = m := by
  rcases exec_cases i s with ⟨m, hi, hx⟩ | ⟨p, op, -, hx⟩ | ⟨-, chunk, hx⟩ | ⟨-, r, hx⟩
  · cases hx.symm.trans h; exact .inr ⟨m, hi, rfl⟩
  · exact .inl (build_cfgMasking (hx.symm.trans h))
  · exact .inl (deliver_keeps (hx.symm.trans h)).1
  · cases hx.symm.trans h; exact .inl rfl

/-- An instruction that is no BUILD draws nothing (R165). -/
theorem exec_keeps_draws {i : Instr} {s t : State} (hi : ∀ p, ¬ Builds p i) (h : exec i s = .next t) :
    t.drawCount = s.drawCount ∧ t.draws = s.draws := by
  rcases exec_cases i s with ⟨m, -, hx⟩ | ⟨p, op, hb, -⟩ | ⟨-, chunk, hx⟩ | ⟨-, r, hx⟩
  · cases hx.symm.trans h; exact ⟨rfl, rfl⟩
  · exact absurd hb (hi p)
  · exact (deliver_keeps (hx.symm.trans h)).2
  · cases hx.symm.trans h; exact ⟨rfl, rfl⟩

/-- An instruction that is a BUILD means `build` of its payload, for one of the opcodes. -/
theorem exec_of_builds {p : Bytes} {i : Instr} (hi : Builds p i) (s : State) : ∃ op, exec i s = build op p s := by
  obtain ⟨r, hr, rfl⟩ := hi
  simp only [buildRows, List.mem_cons, List.not_mem_nil, or_false] at hr
  rcases hr with rfl | rfl | rfl | rfl | rfl | rfl <;> exact ⟨_, rfl⟩

/-- A BUILD of this payload makes a frame with a drawn key: constructed, masking, below the ceiling (R164, R165). -/
def Masks (p : Bytes) (s : State) : Prop :=
  s.constructed = true ∧ s.cfgMasking = true ∧ p.length < s.params.lenCeiling

/-- BUILD makes one draw if it masks, and none otherwise. -/
theorem build_draws {op : BitVec 4} {p : Bytes} {s t : State} (h : build op p s = .next t) :
    (Masks p s ∧ t.drawCount = s.drawCount + 1 ∧ t.draws = s.draws.tail) ∨
    (¬ Masks p s ∧ t.drawCount = s.drawCount ∧ t.draws = s.draws) := by
  rcases build_cases op p s with ⟨hc, hb⟩ | ⟨_, hl, hb⟩ | ⟨hc, hl, hm, hb⟩ | ⟨_, _, hm, hb⟩ <;> cases hb.symm.trans h
  · exact .inr ⟨by simp [Masks, hc], rfl, rfl⟩
  · exact .inr ⟨by simp [Masks, hl], rfl, rfl⟩
  · exact .inl ⟨⟨hc, hm, hl⟩, rfl, rfl⟩
  · exact .inr ⟨by simp [Masks, hm], rfl, rfl⟩

/-! ### The obligations -/

/-- Settles O6: running a fetched wire instruction is running the FEED it came by. -/
theorem stepRunsTheDecodedInstruction : Obligations.StepRunsTheDecodedInstruction := by
  refine ⟨fun _ _ _ _ h hi => step_of_decode h hi, ?_, fun _ h => step_idle h⟩
  intro s c rest chunk i h hc hw hs
  have hf := fetch_wire hc hw hs
  exact ⟨hf, step_of_fetch h hf⟩

/-- Settles O8: every instruction, and the answer `Illegal`, gives a response that `observe` adds. -/
theorem stepAnswersOneCommand : Obligations.StepAnswersOneCommand := by
  intro s c rest h
  rcases step_cases h with hf | ⟨u, r, hs, hr, hp, -, -⟩
  · exact .inl hf
  · exact .inr ⟨_, r, hs, hp, hr, rfl⟩

/-- Settles O17: no instruction touches the parameters, and INIT alone writes `cfg_masking`. -/
theorem parametersAndMaskingAreKept : Obligations.ParametersAndMaskingAreKept := by
  intro s t ht
  cases h : s.pending with
  | nil => cases (step_idle h).symm.trans ht; exact ⟨rfl, .inl rfl⟩
  | cons c rest =>
    rcases step_cases h with hf | ⟨u, r, hs, -, -, hparams, hu⟩
    · cases hf.symm.trans ht
    · cases hs.symm.trans ht
      refine ⟨hparams, ?_⟩
      rcases hu with ⟨i, hd, hx⟩ | ⟨-, rfl⟩
      · rcases exec_cfgMasking hx with hm | ⟨m, rfl, hm⟩
        · exact .inl hm
        · exact .inr ⟨c, rest, m, rfl, hd, hm⟩
      · exact .inl rfl

/-- Settles O18: by whether the command decodes to a BUILD of its data. -/
theorem onlyMaskedBuildDraws : Obligations.OnlyMaskedBuildDraws := by
  intro s t c rest h ht
  rcases step_cases h with hf | ⟨u, r, hs, -, -, -, ⟨i, hd, hx⟩ | ⟨hd, rfl⟩⟩
  · cases hf.symm.trans ht
  · cases hs.symm.trans ht
    by_cases hb : Builds c.data i
    · have hrow : ∃ r ∈ buildRows c.data, decodeCommand c = .ok r.2 := by
        obtain ⟨r, hr, rfl⟩ := hb
        exact ⟨r, hr, hd⟩
      obtain ⟨op, hop⟩ := exec_of_builds hb { s with pending := rest }
      rcases build_draws (hop.symm.trans hx) with ⟨⟨hc, hm, hl⟩, hdraw⟩ | ⟨hn, hdraw⟩
      · exact .inl ⟨hrow, hc, hm, hl, hdraw⟩
      · exact .inr ⟨fun hall => hn hall.2, hdraw⟩
    · obtain ⟨hcount, hdraws⟩ := exec_keeps_draws (fun p hp => hb (builds_data_of_decode hd hp)) hx
      refine .inr ⟨?_, hcount, hdraws⟩
      rintro ⟨⟨r, hr, hdr⟩, -⟩
      exact hb ⟨r, hr, Except.ok.inj (hd.symm.trans hdr)⟩
  · cases hs.symm.trans ht
    exact .inr ⟨fun hall => hall.1.elim fun r hr => hd _ hr.2, rfl, rfl⟩

end Sys2Proof.Machine
end

section
/-! PROOFS. The family of 10_state.md: power-on and INIT (R25, R33, R35), the status word (R31), ERROR (R36), the header scratch (R27,
R32), and the invariant of the decoder's state (R23, R26 to R30). -/

namespace Sys2Proof.Machine

/-! ### Frames of the shared operations -/

/-- A delivery writes the decoder, the response and the index of the free values alone (R24, R25, R56). -/
theorem deliver_frame {chunk : Bytes} {s t : State} (h : deliver chunk s = .next t) :
    t = { s with dec := t.dec, response := t.response, raiseCount := t.raiseCount } := by
  rcases deliver_cases chunk s with ⟨-, hd⟩ | ⟨-, -, -, hd⟩ | ⟨-, -, -, hd⟩ | ⟨-, -, hd⟩ <;> cases hd.symm.trans h <;> rfl

/-- BUILD writes the response and the random source's counts alone (R56, R166). -/
theorem build_frame {op : BitVec 4} {p : Bytes} {s t : State} (h : build op p s = .next t) :
    t = { s with response := t.response, draws := t.draws, drawCount := t.drawCount } := by
  rcases build_cases op p s with ⟨-, hb⟩ | ⟨-, -, hb⟩ | ⟨-, -, -, hb⟩ | ⟨-, -, -, hb⟩ <;> cases hb.symm.trans h <;> rfl

/-- The decoder after a delivery: as before, or as the loop leaves it. -/
theorem deliver_dec {chunk : Bytes} {s t : State} (h : deliver chunk s = .next t) :
    t.dec = s.dec ∨ t.dec = (feedBytes s.params s.raiseCount chunk s.dec).2 := by
  rcases deliver_cases chunk s with ⟨-, hd⟩ | ⟨-, -, -, hd⟩ | ⟨-, -, -, hd⟩ | ⟨-, -, hd⟩ <;> cases hd.symm.trans h
  · exact .inl rfl
  · exact .inl rfl
  · exact .inr rfl

/-- BUILD does not look at the decoder's state (R166). -/
theorem build_ignores_dec (op : BitVec 4) (p : Bytes) (s : State) (d : Decoder) :
    ∃ t, build op p s = .next t ∧ t.dec = s.dec ∧ build op p { s with dec := d } = .next { t with dec := d } := by
  simp only [build, whenConstructed]
  split_ifs <;> exact ⟨_, rfl, rfl, rfl⟩

/-! ### What instructions and steps do, by kind -/

/-- The meaning of an instruction, the same in every state: INIT, a BUILD, a delivery of bytes, MASK or STATUS. -/
theorem exec_kind (i : Instr) :
    (∃ m, i = .init m) ∨ (∃ op p, exec i = build op p) ∨ (∃ chunk, exec i = deliver chunk) ∨
    (∃ b k n, i = .mask b k n) ∨ i = .status := by
  cases i with
  | init m => exact .inl ⟨m, rfl⟩
  | mask b k n => exact .inr (.inr (.inr (.inl ⟨b, k, n, rfl⟩)))
  | status => exact .inr (.inr (.inr (.inr rfl)))
  | buildCont p | buildText p | buildBinary p | buildClose p | buildPing p | buildPong p => exact .inr (.inl ⟨_, p, rfl⟩)
  -- FEED and the wire instructions
  | _ => exact .inr (.inr (.inl ⟨_, rfl⟩))

/-- An instruction that answers keeps `constructed` (R25), unless it is INIT, which sets it. -/
theorem exec_constructed {i : Instr} {s t : State} (h : exec i s = .next t) :
    t.constructed = s.constructed ∨ ∃ m, i = .init m ∧ t.constructed = true := by
  rcases exec_cases i s with ⟨m, hi, hx⟩ | ⟨p, op, -, hx⟩ | ⟨-, chunk, hx⟩ | ⟨-, r, hx⟩
  · cases hx.symm.trans h; exact .inr ⟨m, hi, rfl⟩
  · exact .inl (congrArg State.constructed (build_frame (hx.symm.trans h)) :)
  · exact .inl (congrArg State.constructed (deliver_frame (hx.symm.trans h)) :)
  · cases hx.symm.trans h; exact .inl rfl

/-- The decoder after an instruction that answers: as before, as INIT leaves it, or as the loop leaves it. -/
theorem exec_dec {i : Instr} {s t : State} (h : exec i s = .next t) :
    t.dec = s.dec ∨ t.dec = Decoder.initial ∨ ∃ chunk, t.dec = (feedBytes s.params s.raiseCount chunk s.dec).2 := by
  rcases exec_cases i s with ⟨m, -, hx⟩ | ⟨p, op, -, hx⟩ | ⟨-, chunk, hx⟩ | ⟨-, r, hx⟩
  · cases hx.symm.trans h; exact .inr (.inl rfl)
  · exact .inl (congrArg State.dec (build_frame (hx.symm.trans h)) :)
  · exact (deliver_dec (hx.symm.trans h)).imp_right fun hd => .inr ⟨chunk, hd⟩
  · cases hx.symm.trans h; exact .inl rfl

/-- A step that answers is idle, or runs its command's instruction, or answers `Illegal` (R182), and observes the response. -/
theorem step_next {s t : State} (ht : step s = .next t) :
    t = s ∨ ∃ c rest u r, s.pending = c :: rest ∧ t = { u with trace := s.trace ++ [(c, r)] } ∧ u.params = s.params ∧
      ((∃ i, decodeCommand c = .ok i ∧ exec i { s with pending := rest } = .next u) ∨
       u = { s with pending := rest }.respond .illegal) := by
  cases h : s.pending with
  | nil => cases (step_idle h).symm.trans ht; exact .inl rfl
  | cons c rest =>
    rcases step_cases h with hf | ⟨u, r, hs, -, -, hparams, hu⟩
    · cases hf.symm.trans ht
    · cases hs.symm.trans ht
      exact .inr ⟨c, rest, u, r, rfl, rfl, hparams, hu.imp_right And.right⟩

/-- A step keeps `constructed`, unless its command is INIT, which sets it (R25). -/
theorem step_constructed {s t : State} (ht : step s = .next t) :
    t.constructed = s.constructed ∨
    (t.constructed = true ∧ ∃ c rest m, s.pending = c :: rest ∧ decodeCommand c = .ok (.init m)) := by
  rcases step_next ht with rfl | ⟨c, rest, u, r, hp, rfl, -, ⟨i, hd, hx⟩ | rfl⟩
  · exact .inl rfl
  · rcases exec_constructed hx with hc | ⟨m, rfl, hc⟩
    · exact .inl hc
    · exact .inr ⟨hc, c, rest, m, hp, hd⟩
  · exact .inl rfl

/-! ### Rows -/

theorem snd_of_mem_wireRows {f : Frame} {r : BitVec 4 × Instr} (h : r ∈ wireRows f) : r.2 = wireInstr r.1 f := by
  simp only [wireRows, List.mem_cons, List.not_mem_nil, or_false] at h
  rcases h with rfl | rfl | rfl | rfl | rfl | rfl | rfl | rfl | rfl | rfl | rfl | rfl | rfl | rfl | rfl | rfl <;> rfl

theorem validOpcode_of_mem_validRows {f : Frame} {r : BitVec 4 × Instr} (h : r ∈ validRows f) : validOpcode r.1 = true := by
  simp only [validRows, List.mem_cons, List.not_mem_nil, or_false] at h
  rcases h with rfl | rfl | rfl | rfl | rfl | rfl <;> rfl

/-! ### The status word -/

theorem statusWord_unconstructed {s : State} (h : s.constructed = false) : statusWord s = 0x0000#16 := by
  simp [statusWord, h]

theorem statusWord_constructed {s : State} (h : s.constructed = true) :
    statusWord s = 0#8 ++ errCode s.dec.errKind ++ bit true ++ bit s.cfgMasking ++ s.dec.phase.code := by
  simp [statusWord, h]

/-- The fields of the status word lie where R31 puts them. -/
theorem statusWord_fields (e : BitVec 4) (c m : Bool) (ph : BitVec 2) :
    let w : Word := 0#8 ++ e ++ bit c ++ bit m ++ ph
    w.extractLsb' 0 2 = ph ∧ w.getLsbD 2 = m ∧ w.getLsbD 3 = c ∧ w.extractLsb' 4 4 = e ∧ w.extractLsb' 8 8 = 0#8 := by
  revert e c m ph; decide

/-! ### A header in progress -/

/-- Bytes that stand in the scratch as a proper part of a header get there by being fed, and raise and emit nothing (R101, R102). -/
theorem feedBytes_header {p : Params} {n : Nat} {xs : Bytes} (h : ScratchOk p xs) (rest : Bytes) :
    feedBytes p n (xs ++ rest) Decoder.initial = feedBytes p n rest { Decoder.initial with hbuf := xs } := by
  match xs, h with
  | [], _ => rfl
  | [b0], _ => exact feedBytes_wait rfl
  | b0 :: b1 :: t, ⟨hlen, hbase, hck⟩ =>
    have hfirst : decodeByte p b0 Decoder.initial = .ok { Decoder.initial with hbuf := [b0] } [] := rfl
    have hsecond : decodeByte p b1 { Decoder.initial with hbuf := [b0] } = .ok { Decoder.initial with hbuf := [b0, b1] } [] := by
      rw [decodeByte_header rfl, headerStep_pass (t := []) rfl (fun _ => hbase), if_pos (by simp; omega)]
      · rfl
      · intro he
        have he' : extSize (len7Of b1) ≤ ([] : Bytes).length := he.ge
        exact (checkLength_append p b0 b1 [] t he').symm.trans (hck (he'.trans (Nat.zero_le _)))
    rw [List.cons_append, List.cons_append, feedBytes_wait hfirst, feedBytes_wait hsecond,
      feedBytes_scratch p n b0 b1 t rest _ [] rfl rfl (by simpa using hlen) (by simpa using fun _ => hck)]
    rfl

/-- The length checks pass on the bytes of a frame whose length is legal (R108, R109). -/
theorem checkLength_frame {p : Params} {op : BitVec 4} {f : Frame} (hf : f.wf = true) (hl : f.len.value < p.lenCeiling)
    (hc : p.enforceControlLen = true → controlOpcode op = true → f.len.value ≤ 125) (x : Bytes) :
    checkLength p (f.byte0 op) f.byte1 (f.byte0 op :: f.byte1 :: (f.len.ext ++ x)) = none := by
  simp only [Frame.wf, Bool.and_eq_true] at hf
  simp only [checkLength, checkLen, checkControlLen, len7Of_byte1, opcodeOf_byte0, lenOf_frame hf.1]
  rw [if_neg (by omega)]
  exact if_neg fun ⟨he, ho, hlt⟩ => absurd (hc he ho) (by omega)

/-- Any proper part of the header of a frame that passes its checks may stand in the scratch. -/
theorem scratchOk_take {p : Params} {op : BitVec 4} {f : Frame} {n : Nat} (hf : f.wf = true) (hbase : checkBase (f.byte0 op) = none)
    (hl : f.len.value < p.lenCeiling) (hc : p.enforceControlLen = true → controlOpcode op = true → f.len.value ≤ 125)
    (hn : n < hsize f.byte1) : ScratchOk p ((f.bytes op).take n) := by
  match n with
  | 0 | 1 => trivial
  | n + 2 =>
    refine ⟨by simp; omega, hbase, fun he => ?_⟩
    have hext : f.len.ext.length = extSize f.len.len7 := by
      simp only [Frame.wf, Bool.and_eq_true] at hf
      exact ext_length hf.1
    rw [List.append_assoc, List.take_append, List.take_of_length_le (by simp at he; omega)]
    exact checkLength_frame hf hl hc _

/-! ### The invariant -/

theorem checkBase_none {b0 : Byte} (h : checkBase b0 = none) :
    validOpcode (opcodeOf b0) = true ∧ (opcodeOf b0 ∉ [0#4, 1#4, 2#4] → finOf b0 = true) := by
  revert b0; decide

/-- Where a 64-bit length is below the ceiling, so is every length: the shorter forms hold less than 2^53 (R8, R78, R108). -/
theorem lenOf_lt_ceiling {p : Params} {n : BitVec 7} {hbuf : Bytes} (hp : p.Legal) (h : checkLen p n hbuf = none) :
    lenOf n hbuf < p.lenCeiling := by
  obtain ⟨hmin, -⟩ := hp
  by_cases h127 : n = 127#7
  · simpa [checkLen, h127] using h
  · by_cases h125 : n.toNat ≤ 125
    · simp only [lenOf, h125, if_true]; omega
    · have h126 : n.toNat = 126 := by bv_omega
      have hlt : beNat (memRead hbuf 2 2) < 256 ^ 2 :=
        (beNat_lt _).trans_le (Nat.pow_le_pow_right (by omega) (List.length_take_le _ _))
      simp only [lenOf, h126, if_true, show ¬ 126 ≤ 125 by omega, if_false]
      omega

theorem checkLength_none {p : Params} {b0 b1 : Byte} {hbuf : Bytes} (h : checkLength p b0 b1 hbuf = none) :
    checkLen p (len7Of b1) hbuf = none ∧
    (p.enforceControlLen = true → controlOpcode (opcodeOf b0) = true → lenOf (len7Of b1) hbuf ≤ 125) := by
  unfold checkLength at h
  split at h
  · cases h
  next hl =>
    refine ⟨hl, fun he ho => ?_⟩
    simpa [checkControlLen, he, ho] using h

/-- A header whose bytes have all come and passed their checks, within the capacity, meets the frame invariants (R30). -/
theorem headerOf_ok {p : Params} {b0 b1 : Byte} {hbuf : Bytes} (hp : p.Legal) (hbase : checkBase b0 = none)
    (hck : checkLength p b0 b1 hbuf = none) (hlen : hsize b1 ≤ hbuf.length)
    (hcap : (headerOf b0 b1 hbuf).payloadLength ≤ p.payloadCapacity) : (headerOf b0 b1 hbuf).Ok p := by
  obtain ⟨hop, hfin⟩ := checkBase_none hbase
  obtain ⟨hl, hcontrol⟩ := checkLength_none hck
  refine ⟨hop, hfin, lenOf_lt_ceiling hp hl, ⟨extSize (len7Of b1), ?_, rfl⟩, ?_, hcap, hcontrol⟩
  · unfold extSize; split_ifs <;> decide
  · cases hm : maskedOf b1 with
    | false => simp [headerOf, hm]
    | true =>
      have h4 : (memRead hbuf (hsize b1 - 4) 4).length = 4 := by
        have : 4 ≤ hsize b1 := by simp only [hsize, hm, if_true]; omega
        simp [memRead]; omega
      obtain ⟨k, hk, -⟩ := keyOf_four h4
      simp [headerOf, hm, hk]

/-- A header byte that raises nothing passed the checks that fall on it, and either waits for more or completes the header (R101). -/
theorem headerStep_ok {p : Params} {d d' : Decoder} {b0 b1 : Byte} {t : Bytes} {evs : List Event} (hb : d.hbuf = b0 :: b1 :: t)
    (h : headerStep p d = .ok d' evs) :
    (t = [] → checkBase b0 = none) ∧ (t.length = extSize (len7Of b1) → checkLength p b0 b1 d.hbuf = none) ∧
    ((2 + t.length < hsize b1 ∧ d' = d) ∨ (hsize b1 ≤ 2 + t.length ∧ finalize p b0 b1 d = .ok d' evs)) := by
  have hbase : t = [] → checkBase b0 = none := by
    rintro rfl
    by_contra hne
    obtain ⟨k, hk⟩ := Option.ne_none_iff_exists'.mp hne
    cases (headerStep_base hb hk).symm.trans h
  have hck : t.length = extSize (len7Of b1) → checkLength p b0 b1 d.hbuf = none := by
    intro he
    by_contra hne
    obtain ⟨k, hk⟩ := Option.ne_none_iff_exists'.mp hne
    cases (headerStep_length hb hbase he hk).symm.trans h
  refine ⟨hbase, hck, ?_⟩
  rw [headerStep_pass hb hbase hck] at h
  split at h
  next hlt => cases h; exact .inl ⟨hlt, rfl⟩
  next hge => exact .inr ⟨Nat.not_lt.mp hge, h⟩

/-- After a header byte that raises nothing, every check whose bytes have arrived has passed: the earlier ones by what held of the
scratch, the others by this step. -/
theorem checks_passed {p : Params} {d d' : Decoder} {b b0 b1 : Byte} {t : Bytes} {evs : List Event} (hs : ScratchOk p d.hbuf)
    (hb : (headerByte b d).hbuf = b0 :: b1 :: t) (h : headerStep p (headerByte b d) = .ok d' evs) :
    checkBase b0 = none ∧ (extSize (len7Of b1) ≤ t.length → checkLength p b0 b1 (b0 :: b1 :: t) = none) := by
  obtain ⟨hbase, hck, -⟩ := headerStep_ok hb h
  rw [hb] at hck
  rw [headerByte_hbuf] at hb
  match hd : d.hbuf, hs, hb with
  | [_], _, rfl => exact ⟨hbase rfl, fun he => hck (Nat.le_antisymm (Nat.zero_le _) he)⟩
  | _ :: _ :: t', ⟨_, hbase', hck'⟩, rfl =>
    refine ⟨hbase', fun he => ?_⟩
    by_cases hlt : extSize (len7Of b1) ≤ t'.length
    · exact (checkLength_append p b0 b1 t' [b] hlt).trans (hck' hlt)
    · exact hck (by simp at he ⊢; omega)

theorem Decoder.Inv.initial (p : Params) : Decoder.initial.Inv p :=
  ⟨by simp, by simp [Decoder.hcnt], fun _ => ⟨rfl, trivial⟩, nofun⟩

/-- Without an error, a frame boundary leaves what INIT does (R33, R34). -/
theorem Decoder.frameReset_eq_initial {d : Decoder} (h : d.errKind = none) : d.frameReset = Decoder.initial := by
  simp [Decoder.frameReset, Decoder.initial, h]

theorem Decoder.Inv.raise (p : Params) (n : Nat) (k : ErrKind) : (Decoder.raise p n k).Inv p :=
  ⟨by simp, by simp [Decoder.hcnt], nofun, nofun⟩

theorem Decoder.Inv.errKind_none {p : Params} {d : Decoder} (hd : d.Inv p) (h : d.phase ≠ .error) : d.errKind = none :=
  not_not.mp (mt hd.error.mpr h)

/-- A decoder in AWAIT_HEADER with this scratch meets the invariant. -/
theorem Decoder.Inv.scratchOk {p : Params} {d : Decoder} (hp : d.phase = .awaitHeader) (he : d.errKind = none) (hh : d.hdr = none)
    (hlen : d.hcnt ≤ 14) (hs : ScratchOk p d.hbuf) : d.Inv p :=
  ⟨by simp [hp, he], hlen, fun _ => ⟨by simp [Decoder.hdrValid, hh], hs⟩, by simp [hp]⟩

/-- A decoder in AWAIT_PAYLOAD with this header meets the invariant. -/
theorem Decoder.Inv.headerHeld {p : Params} {d : Decoder} {h : Header} (hp : d.phase = .awaitPayload) (he : d.errKind = none)
    (hc : d.hcnt = 0) (hh : d.hdr = some h) (hok : h.Ok p) (hw : d.written < h.payloadLength) : d.Inv p :=
  ⟨by simp [hp, he], by omega, by simp [hp], fun _ => ⟨hc, h, hh, hok, hw⟩⟩

/-- The byte that completes a header leaves the start of a frame, or the header held with no payload byte (R110). -/
theorem finalize_inv {p : Params} {d d' : Decoder} {b0 b1 : Byte} {evs : List Event} (hp : p.Legal) (he : d.errKind = none)
    (hbase : checkBase b0 = none) (hck : checkLength p b0 b1 d.hbuf = none) (hlen : hsize b1 ≤ d.hcnt)
    (h : finalize p b0 b1 d = .ok d' evs) : d'.Inv p := by
  simp only [finalize] at h
  split_ifs at h with hcap hzero <;> cases h
  · rw [Decoder.frameReset_eq_initial he]; exact .initial p
  · exact .headerHeld rfl he rfl rfl (headerOf_ok hp hbase hck hlen (Nat.not_lt.mp hcap)) (Nat.pos_of_ne_zero hzero)

/-- A header byte keeps the invariant (R101 to R110). -/
theorem headerByte_inv {p : Params} {b : Byte} {d d' : Decoder} {evs : List Event} (hp : p.Legal) (hd : d.Inv p)
    (hph : d.phase = .awaitHeader) (h : headerStep p (headerByte b d) = .ok d' evs) : d'.Inv p := by
  obtain ⟨hvalid, hs⟩ := hd.header hph
  have he : d.errKind = none := hd.errKind_none (by simp [hph])
  have hh : d.hdr = none := by simpa [Decoder.hdrValid] using hvalid
  match hb : (headerByte b d).hbuf with
  | [] => simp at hb
  | [b0] =>
    have hwait : headerStep p (headerByte b d) = .ok (headerByte b d) [] := by simp only [headerStep, hb]
    cases hwait.symm.trans h
    have hcnt : (headerByte b d).hcnt = 1 := congrArg List.length hb
    exact .scratchOk hph he hh (by omega) (by rw [hb]; trivial)
  | b0 :: b1 :: t =>
    obtain ⟨hbase, hck⟩ := checks_passed hs hb h
    have hcnt : (headerByte b d).hcnt = 2 + t.length := (congrArg List.length hb).trans (Nat.add_comm t.length 2)
    obtain ⟨-, -, ⟨hlt, rfl⟩ | ⟨hge, hf⟩⟩ := headerStep_ok hb h
    · exact .scratchOk hph he hh (by have := hsize_bounds b1; omega) (by rw [hb]; exact ⟨hlt, hbase, hck⟩)
    · have hext : extSize (len7Of b1) ≤ t.length := by unfold hsize at hge; omega
      exact finalize_inv (d := headerByte b d) hp he hbase (by rw [hb]; exact hck hext) (by omega) hf

/-- A payload byte keeps the invariant (R111 to R113). -/
theorem payloadByte_inv {p : Params} {b : Byte} {d d' : Decoder} {evs : List Event} (hd : d.Inv p)
    (hph : d.phase = .awaitPayload) (h : decodeByte p b d = .ok d' evs) : d'.Inv p := by
  obtain ⟨hc, hdr, hh, hok, hw⟩ := hd.payload hph
  have he : d.errKind = none := hd.errKind_none (by simp [hph])
  by_cases hl : d.written + 1 = hdr.payloadLength
  · cases (decodeByte_complete hph hh hl).symm.trans h
    rw [Decoder.frameReset_eq_initial he]; exact .initial p
  · cases (decodeByte_store hph hh hl).symm.trans h
    exact .headerHeld hph he hc hh hok (by rw [storeByte_written]; omega)

theorem decodeByte_inv {p : Params} {b : Byte} {d d' : Decoder} {evs : List Event} (hp : p.Legal) (hd : d.Inv p)
    (h : decodeByte p b d = .ok d' evs) : d'.Inv p := by
  cases hph : d.phase with
  | awaitHeader => exact headerByte_inv hp hd hph ((decodeByte_header hph).symm.trans h)
  | awaitPayload => exact payloadByte_inv hd hph h
  | error =>
    simp only [decodeByte, hph] at h
    cases h; exact hd

/-- The loop of FEED keeps the invariant, by induction on the chunk. -/
theorem feedBytes_inv {p : Params} (n : Nat) (hp : p.Legal) (chunk : Bytes) {d : Decoder} (hd : d.Inv p) :
    (feedBytes p n chunk d).2.Inv p := by
  induction chunk generalizing d with
  | nil => exact hd
  | cons b bs ih =>
    cases hb : decodeByte p b d with
    | raised k => rw [feedBytes_raised hb]; exact .raise p n k
    | ok d' evs => rw [feedBytes_ok hb]; exact ih (decodeByte_inv hp hd hb)

/-- An instruction keeps the invariant of the decoder. -/
theorem exec_dec_inv {i : Instr} {s t : State} (hs : s.Inv) (h : exec i s = .next t) : t.dec.Inv s.params := by
  rcases exec_dec h with hd | hd | ⟨chunk, hd⟩ <;> rw [hd]
  · exact hs.decoder
  · exact .initial _
  · exact feedBytes_inv _ hs.legal chunk hs.decoder

/-! ### The obligations -/

/-- Settles O48: by the decoder that an instruction can leave, and the loop of FEED a byte at a time. -/
theorem stepKeepsTheInvariant : Obligations.StepKeepsTheInvariant := by
  intro s t hs ht
  rcases step_next ht with rfl | ⟨c, rest, u, r, -, rfl, hparams, ⟨i, -, hx⟩ | rfl⟩
  · exact hs
  · have hdec : u.dec.Inv s.params := exec_dec_inv (s := { s with pending := rest }) ⟨hs.legal, hs.decoder⟩ hx
    exact ⟨hparams ▸ hs.legal, hparams ▸ hdec⟩
  · exact ⟨hs.legal, hs.decoder⟩

/-- Settles O13: INIT alone writes `constructed`; before it, delivery and BUILD end at the dispatch check. -/
theorem constructedIsSetByInitAndKept : Obligations.ConstructedIsSetByInitAndKept := by
  refine ⟨rfl, ?_, ?_, ?_, ?_⟩
  · intro m s t h
    cases h; rfl
  · intro s t ht hs
    rcases step_constructed ht with hc | ⟨hc, -⟩
    · exact hc.trans hs
    · exact hc
  · intro s t ht hs hset
    rcases step_constructed ht with hc | ⟨-, hinit⟩
    · cases (hc.trans hs).symm.trans hset
    · exact hinit
  · intro s p f hs
    refine ⟨deliver_unconstructed hs p, fun r hr => ?_, fun r hr => ?_⟩
    · rw [snd_of_mem_wireRows hr, exec_wire_eq_feed]
      exact deliver_unconstructed hs _
    · obtain ⟨op, hop⟩ := exec_of_builds ⟨r, hr, rfl⟩ s
      exact hop.trans (whenConstructed_false hs _)

/-- Settles O14: INIT and MASK answer alike in every state, and before INIT each of the others has one answer. -/
theorem unspecifiedPowerOnStateIsNotRead : Obligations.UnspecifiedPowerOnStateIsNotRead := by
  intro i s m d hs
  have hs' : { s with cfgMasking := m, dec := d }.constructed = false := hs
  rcases exec_kind i with ⟨_, rfl⟩ | ⟨op, p, hx⟩ | ⟨chunk, hx⟩ | ⟨_, _, _, rfl⟩ | rfl
  · exact ⟨_, _, rfl, rfl, rfl, rfl, rfl⟩
  · rw [hx]
    exact ⟨_, _, whenConstructed_false hs _, whenConstructed_false hs' _, rfl, rfl, rfl⟩
  · rw [hx]
    exact ⟨_, _, deliver_unconstructed hs _, deliver_unconstructed hs' _, rfl, rfl, rfl⟩
  · exact ⟨_, _, rfl, rfl, rfl, rfl, rfl⟩
  · refine ⟨_, _, rfl, rfl, ?_, rfl, rfl⟩
    simp [statusWord_unconstructed hs, statusWord_unconstructed hs']

/-- Settles O36: FEED stops at the phase, BUILD does not look at the decoder, and STATUS reads the phase and `err_kind` alone. -/
theorem deadDecoderStateIsNotRead : Obligations.DeadDecoderStateIsNotRead := by
  intro i s hbuf pbuf hdr hc hp
  rcases exec_kind i with ⟨_, rfl⟩ | ⟨op, p, hx⟩ | ⟨chunk, hx⟩ | ⟨_, _, _, rfl⟩ | rfl
  · exact .inr ⟨_, _, rfl, rfl, rfl, rfl, rfl⟩
  · rw [hx]
    obtain ⟨t, ht, hdec, ht'⟩ := build_ignores_dec op p s { s.dec with hbuf := hbuf, hdr := hdr, pbuf := pbuf }
    exact .inr ⟨t, _, ht, ht', rfl, (congrArg Decoder.phase hdec :), (congrArg Decoder.errKind hdec :)⟩
  · rw [hx]
    by_cases hn : chunk = []
    · subst hn
      exact .inr ⟨_, _, deliver_nil hc, deliver_nil hc, rfl, rfl, rfl⟩
    · exact .inl ⟨deliver_dead hc hp hn, deliver_dead (by exact hc) (by exact hp) hn⟩
  · exact .inr ⟨_, _, rfl, rfl, rfl, rfl, rfl⟩
  · exact .inr ⟨_, _, rfl, rfl, rfl, rfl, rfl⟩

/-- Settles O49: a cut of such a header is a proper part of one, which FEED puts in the scratch. -/
theorem partialHeaderWaits : Obligations.PartialHeaderWaits := by
  rintro s f n ⟨hc, hd⟩ hf hrsv hl hn r hr hfin hcontrol
  have hbase : checkBase (f.byte0 r.1) = none := by
    obtain ⟨h1, h2, h3⟩ := hrsv
    rw [checkBase_byte0]
    simpa [h1, h2, h3, validOpcode_of_mem_validRows hr] using hfin
  have hfeed : feedBytes s.params s.raiseCount ((f.bytes r.1).take n) s.dec =
      ([], { s.dec with hbuf := (f.bytes r.1).take n }) := by
    rw [hd]
    simpa using feedBytes_header (n := s.raiseCount) (scratchOk_take hf hbase hl hcontrol hn) []
  refine (deliver_live hc (by simp [hd]) _).trans ?_
  simp only [hfeed]
  simp [hd]

/-- Settles O10: `State.construct` is the initial state. -/
theorem initGivesTheInitialState : Obligations.InitGivesTheInitialState :=
  fun _ _ => ⟨_, rfl, rfl, rfl, rfl, rfl, rfl, rfl, rfl, rfl⟩

/-- Settles O12: the codes of the phases and of the error kinds are the numbers of R26 and R200. -/
theorem statusWordLayout : Obligations.StatusWordLayout := by
  intro s
  refine ⟨statusWord s, rfl, statusWord_unconstructed, fun h => ?_⟩
  rw [statusWord_constructed h]
  obtain ⟨hphase, hmask, hcons, herr, hzero⟩ := statusWord_fields (errCode s.dec.errKind) true s.cfgMasking s.dec.phase.code
  refine ⟨hphase.trans ?_, hmask, hcons, herr.trans ?_, hzero⟩
  · cases s.dec.phase <;> rfl
  · rcases s.dec.errKind with _ | k
    · rfl
    · cases k <;> rfl

/-- Settles O47: the decoder after power-on is INIT's (log 5), and the default ceiling is the least legal one. -/
theorem resetMeetsTheInvariant : Obligations.ResetMeetsTheInvariant :=
  ⟨by decide, .initial _⟩

end Sys2Proof.Machine
end

section
/-! PROOFS. The family of 20_memory.md: what the commands other than FEED leave unchanged, and INIT issued twice (R56). -/

namespace Sys2Proof.Machine

/-- Constructing an instance again, after its answer, changes nothing: INIT reads no element of the instance (R33). -/
theorem State.construct_respond_idem (s : State) (m : Bool) (r : Response) :
    (((s.construct m).respond r).construct m).respond r = (s.construct m).respond r := rfl

/-- A meaning that only answers writes the response alone. -/
theorem respond_frame {x : Result} {s t : State} (hx : ∃ r, x = .next (s.respond r)) (h : x = .next t) :
    t = { s with response := t.response } := by
  obtain ⟨r, hr⟩ := hx
  cases hr.symm.trans h; rfl

/-- A delivery of no bytes only answers: `Illegal` before construction (R182), no events after it (R115). -/
theorem deliver_nil_responds (s : State) : ∃ r, deliver [] s = .next (s.respond r) := by
  cases hc : s.constructed with
  | false => exact ⟨_, deliver_unconstructed hc []⟩
  | true => exact ⟨_, deliver_nil hc⟩

/-! ### The obligations -/

/-- Settles O11: INIT's answer is `construct` and `done`, which are idempotent together. -/
theorem initTwiceIsInitOnce : Obligations.InitTwiceIsInitOnce := by
  intro m s t h
  cases h
  exact congrArg Host.Outcome.next (State.construct_respond_idem s m .done)

/-- Settles O15: each of the six builders is `build` of the payload, with its frame; MASK, STATUS and the empty FEED only answer. -/
theorem otherCommandsKeepTheInstance : Obligations.OtherCommandsKeepTheInstance := by
  intro s t p k n
  refine ⟨fun r hr h => ?_, respond_frame ⟨_, rfl⟩, respond_frame ⟨_, rfl⟩, respond_frame (deliver_nil_responds s)⟩
  obtain ⟨op, hop⟩ := exec_of_builds ⟨r, hr, rfl⟩ s
  exact build_frame (hop.symm.trans h)

end Sys2Proof.Machine
end

section
/-! PROOFS. The family of 30_encoding.md: the two encodings read and written (R70 to R74, R79 to R81), the illegal command words
(R82), the events of a FEED (R83, R203), and what a finalized header holds (R110). -/

namespace Sys2Proof

/-! ### Wire encodings -/

@[simp] theorem wireInstr_wf (op : BitVec 4) (f : Frame) : (wireInstr op f).wf = f.wf := by
  match op with
  | ⟨⟨n, h⟩⟩ => interval_cases n <;> rfl

/-- The decoder cuts the bytes after a length field into the key and the payload they were made of (R70, R73). -/
theorem cut_keyBytes_append (k : Option Key) (s : Bytes) :
    (if k.isSome then keyOf ((keyBytes k ++ s).take 4) else none) = k ∧
      (if k.isSome then (keyBytes k ++ s).drop 4 else keyBytes k ++ s) = s := by
  cases k <;> exact ⟨rfl, rfl⟩

/-- The bytes of a well-formed frame are read as that frame, and none is left (R70, R79). -/
theorem decodeFrame_bytes (op : BitVec 4) {f : Frame} (h : f.wf = true) :
    decodeFrame (f.bytes op) = .ok (wireInstr op f, []) := by
  obtain ⟨hlen, hpay⟩ : f.len.wf = true ∧ f.payload.length ≤ f.len.value := by simpa [Frame.wf] using h
  obtain ⟨hkey, hbody⟩ := cut_keyBytes_append f.key f.payload
  obtain ⟨h1, h2, h3⟩ := rsv_byte0 op f
  have hwhole : ¬ (f.len.ext ++ (keyBytes f.key ++ f.payload)).length < hsize f.byte1 - 2 := by
    rw [hsize_byte1 h]; simp only [List.length_append]; omega
  simp only [Frame.bytes, List.append_assoc, decodeFrame, if_neg hwhole, len7Of_byte1, maskedOf_byte1, opcodeOf_byte0,
    finOf_byte0, h1, h2, h3, ← ext_length hlen, List.take_left, List.drop_left, lenFieldOf_ext hlen, hkey, hbody,
    List.take_of_length_le hpay, List.drop_of_length_le hpay]

theorem decode_wire_bytes (op : BitVec 4) {f : Frame} (h : f.wf = true) :
    decode (.wire (f.bytes op)) = .ok (wireInstr op f) := by
  simp only [decode, decodeFrame_bytes op h]

/-- Settles O2: a wire row is its frame's bytes read back, and a command is the fields of its word read back. -/
theorem decodeOfEncodeIsSame : Obligations.DecodeOfEncodeIsSame := by
  intro i hi
  cases i with
  | continuation f | text f | binary f | invalid3 f | invalid4 f | invalid5 f | invalid6 f | invalid7 f | close f | ping f
  | pong f | invalidB f | invalidC f | invalidD f | invalidE f | invalidF f => exact decode_wire_bytes _ hi
  | mask b k n => cases k <;> exact decodeCommand_commandWord ..
  -- the commands with no operand but data
  | _ => exact decodeCommand_commandWord ..

/-- Settles O3: bytes that decode are the bytes of a well-formed frame, which are what the encoder writes. -/
theorem encodeOfDecodedFrameIsSame : Obligations.EncodeOfDecodedFrameIsSame := by
  intro bytes i h
  obtain ⟨op, f, rfl, hf, rfl⟩ := decode_wire_ok h
  exact ⟨(wireInstr_wf op f).trans hf, encode_wireInstr op f⟩

/-- Settles O1, by evaluating the decoder on each word. -/
theorem tableWordsDecode : Obligations.TableWordsDecode := by
  unfold Obligations.TableWordsDecode
  decide

/-! ### Command words -/

/-- The five items of R82, of the fields of a command word. -/
def IllegalFields (cmd opc : BitVec 4) (reserved : BitVec 7) (f : Bool) : Prop :=
  cmd.toNat = 0 ∨ 6 ≤ cmd.toNat ∨ reserved ≠ 0#7 ∨ (cmd ≠ 3#4 ∧ opc ≠ 0#4) ∨
    (cmd = 3#4 ∧ opc ∉ [0#4, 1#4, 2#4, 8#4, 9#4, 10#4]) ∨ (f = true ∧ cmd ∈ [2#4, 3#4, 5#4])

/-- The five items of R82, of a command word. -/
def IllegalWord (w : Word) : Prop :=
  IllegalFields (w.extractLsb' 12 4) (w.extractLsb' 8 4) (w.extractLsb' 1 7) (w.getLsbD 0)

/-- The twelve command words of R81: the six of BUILD, then those of INIT, FEED, MASK and STATUS. -/
def legalWords : List Word :=
  [0x3000#16, 0x3100#16, 0x3200#16, 0x3800#16, 0x3900#16, 0x3A00#16,
    0x1000#16, 0x1001#16, 0x2000#16, 0x4000#16, 0x4001#16, 0x5000#16]

theorem buildInstr_ok_iff (opc : BitVec 4) (p : Bytes) :
    (∃ i, buildInstr opc p = .ok i) ↔ opc ∈ [0#4, 1#4, 2#4, 8#4, 9#4, 10#4] := by
  match opc with
  | ⟨⟨n, h⟩⟩ => interval_cases n <;> simp [buildInstr]

/-- The fields of a command word decode to an instruction exactly when no item of R82 is met: by the class, and for BUILD by OPC. -/
theorem decodeFields_ok_iff (cmd opc : BitVec 4) (reserved : BitVec 7) (f : Bool) (d : Bytes) (k : Key) (n : Nat) :
    (∃ i, decodeFields cmd opc reserved f d k n = .ok i) ↔ ¬ IllegalFields cmd opc reserved f := by
  by_cases hr : reserved = 0#7
  · by_cases hbuild : cmd = 3#4
    · cases f with
      | false => simp [decodeFields, hr, hbuild, IllegalFields, buildInstr_ok_iff, -List.mem_cons]
      | true => simp [decodeFields, hr, hbuild, IllegalFields]
    · match cmd with
      | ⟨⟨c, h⟩⟩ =>
        interval_cases c <;> by_cases ho : opc = 0#4 <;> cases f <;> simp [decodeFields, hr, ho, IllegalFields] at hbuild ⊢
  · simp [decodeFields, hr, IllegalFields]

theorem decodeCommand_ok_iff (c : Command) : (∃ i, decodeCommand c = .ok i) ↔ ¬ IllegalWord c.word :=
  decodeFields_ok_iff ..

/-- The words that meet no item of R82 are the twelve of R81. -/
theorem not_illegalWord_iff (w : Word) : ¬ IllegalWord w ↔ w ∈ legalWords := by
  have hlisted : ∀ w ∈ legalWords, ¬ IllegalWord w := by simp [legalWords, IllegalWord, IllegalFields]
  have hfields : ∀ (c o : BitVec 4) (f : Bool), ¬ IllegalFields c o 0#7 f → commandWord c o f ∈ legalWords := by
    unfold IllegalFields; decide
  refine ⟨fun h => ?_, hlisted w⟩
  have hr : w.extractLsb' 1 7 = 0#7 := by
    by_contra hne
    exact h (.inr (.inr (.inl hne)))
  have hw : commandWord (w.extractLsb' 12 4) (w.extractLsb' 8 4) (w.getLsbD 0) = w := by
    rw [commandWord, ← hr]; exact word_fields w
  rw [IllegalWord, hr] at h
  exact hw ▸ hfields _ _ _ h

/-- Settles O4: the words that decode are those that meet no item of R82. -/
theorem commandWordsAreTheListed : Obligations.CommandWordsAreTheListed :=
  fun c => (decodeCommand_ok_iff c).trans (not_illegalWord_iff c.word)

end Sys2Proof

namespace Sys2Proof.Machine

/-- Settles O5: a word that meets an item of R82 does not decode, and a step on it is `illegal`, observed. -/
theorem illegalWordsAnswerIllegal : Obligations.IllegalWordsAnswerIllegal := by
  intro s c rest h hill
  cases hd : decodeCommand c with
  | ok i => exact absurd hill ((decodeCommand_ok_iff c).mp ⟨i, hd⟩)
  | error e => exact step_of_undecodable h hd

/-! ### The events of a FEED -/

/-- What the loop of FEED answers from a decoder whose `err_kind` is `e`: `Emit` events and a live decoder with `err_kind` kept, or
`Emit` events, one `Error`, and a decoder in ERROR of its kind (R23, R203). -/
def EmitsThenMayRaise (e : Option ErrKind) (r : List Event × Decoder) : Prop :=
  ∃ emits, (∀ ev ∈ emits, ∃ op fin p, ev = .emit op fin p) ∧
    ((r.2.phase ≠ .error ∧ r.1 = emits ∧ r.2.errKind = e) ∨
     ∃ k, r.2.phase = .error ∧ r.1 = emits ++ [.error k] ∧ r.2.errKind = some k)

/-- By induction on the chunk: a byte emits at most one `Emit` and stays live, or raises and ends the loop. -/
theorem feedBytes_emitsThenMayRaise (p : Params) (n : Nat) (chunk : Bytes) {d : Decoder} (hd : d.phase ≠ .error) :
    EmitsThenMayRaise d.errKind (feedBytes p n chunk d) := by
  induction chunk generalizing d with
  | nil => exact ⟨[], nofun, .inl ⟨hd, rfl, rfl⟩⟩
  | cons b bs ih =>
    cases hb : decodeByte p b d with
    | raised k =>
      rw [feedBytes_raised hb]
      exact ⟨[], nofun, .inr ⟨k, rfl, rfl, rfl⟩⟩
    | ok d' evs =>
      obtain ⟨hd', herr, hevs⟩ := decodeByte_ok hd hb
      obtain ⟨emits, hemits, hend⟩ := ih hd'
      have hevs' : ∀ ev ∈ evs, ∃ op fin p, ev = .emit op fin p := by
        rcases hevs with rfl | ⟨op, fin, q, rfl⟩
        · nofun
        · exact List.forall_mem_singleton.mpr ⟨op, fin, q, rfl⟩
      rw [feedBytes_ok hb]
      refine ⟨evs ++ emits, fun ev hev => (List.mem_append.mp hev).elim (hevs' ev) (hemits ev), ?_⟩
      rcases hend with ⟨hp, he, hk⟩ | ⟨k, hp, he, hk⟩
      · exact .inl ⟨hp, by rw [he], hk.trans herr⟩
      · exact .inr ⟨k, hp, by rw [he, List.append_assoc], hk⟩

/-- Settles O33: a delivery outside ERROR answers what the loop does. -/
theorem errorEventIsLastAndOnly : Obligations.ErrorEventIsLastAndOnly := by
  intro s t chunk hc hp h
  cases (deliver_live hc hp chunk).symm.trans h
  obtain ⟨emits, hemits, ⟨hlive, he, hk⟩ | ⟨k, hdead, he, hk⟩⟩ :=
    feedBytes_emitsThenMayRaise s.params s.raiseCount chunk hp
  · exact ⟨emits, hemits, .inl ⟨hlive, by rw [he], hk, if_neg hlive⟩⟩
  · exact ⟨emits, hemits, .inr ⟨k, hdead, by rw [he], hk, if_pos hdead⟩⟩

/-! ### A finalized header -/

/-- The length checks pass on a header of a data frame, whose 64-bit length, if it has one, is below the ceiling (R108, R109). -/
theorem checkLength_data {p : Params} {b0 b1 : Byte} {hbuf : Bytes} (ho : controlOpcode (opcodeOf b0) = false)
    (hl : len7Of b1 = 127#7 → lenOf (len7Of b1) hbuf < p.lenCeiling) : checkLength p b0 b1 hbuf = none := by
  have hlen : checkLen p (len7Of b1) hbuf = none := if_neg fun ⟨h127, hge⟩ => absurd (hl h127) (by omega)
  simp [checkLength, hlen, checkControlLen, ho]

/-- The bytes of a whole header that passes its checks, with a payload to come that fits the buffer, leave the header held, and emit
nothing (R101, R110). -/
theorem feedBytes_wholeHeader {p : Params} {n : Nat} {b0 b1 : Byte} {t : Bytes} (hlen : hsize b1 = 2 + t.length)
    (hbase : checkBase b0 = none) (hck : checkLength p b0 b1 (b0 :: b1 :: t) = none)
    (hpos : 0 < (headerOf b0 b1 (b0 :: b1 :: t)).payloadLength)
    (hcap : (headerOf b0 b1 (b0 :: b1 :: t)).payloadLength ≤ p.payloadCapacity) (rest : Bytes) :
    feedBytes p n (b0 :: b1 :: t ++ rest) Decoder.initial =
      feedBytes p n rest { Decoder.initial with phase := .awaitPayload, hdr := some (headerOf b0 b1 (b0 :: b1 :: t)) } := by
  obtain ⟨ys, x, hyx, hscratch⟩ : ∃ ys x, b0 :: b1 :: t = ys ++ [x] ∧ ScratchOk p ys := by
    rcases List.eq_nil_or_concat t with rfl | ⟨t', x, rfl⟩
    · exact ⟨[b0], b1, rfl, trivial⟩
    · rw [List.length_concat] at hlen
      refine ⟨b0 :: b1 :: t', x, by simp, by omega, hbase, fun he => ?_⟩
      rw [← checkLength_append p b0 b1 t' [x] he]
      simpa using hck
  have hstep : decodeByte p x { Decoder.initial with hbuf := ys } =
      .ok { Decoder.initial with phase := .awaitPayload, hdr := some (headerOf b0 b1 (b0 :: b1 :: t)) } [] := by
    rw [decodeByte_header rfl, headerStep_pass (b0 := b0) (b1 := b1) (t := t) hyx.symm (fun _ => hbase)
      (fun _ => by rw [headerByte_hbuf, ← hyx]; exact hck), if_neg (by omega)]
    simp only [finalize, headerByte_hbuf, ← hyx, if_neg (Nat.not_lt.mpr hcap), if_neg (Nat.pos_iff_ne_zero.mp hpos)]
    rfl
  calc feedBytes p n (b0 :: b1 :: t ++ rest) Decoder.initial
      = feedBytes p n (ys ++ (x :: rest)) Decoder.initial := by simp [hyx]
    _ = feedBytes p n (x :: rest) { Decoder.initial with hbuf := ys } := feedBytes_header hscratch _
    _ = _ := feedBytes_wait hstep

/-- A FEED of a whole header of a data frame, at the start of a frame, answers no events and leaves the header held (R110). -/
theorem exec_feed_dataHeader {s : State} {b0 b1 : Byte} {t : Bytes} {h : Header} (hs : s.Fresh) (hlen : hsize b1 = 2 + t.length)
    (hh : headerOf b0 b1 (b0 :: b1 :: t) = h) (hbase : checkBase b0 = none) (ho : controlOpcode h.opcode = false)
    (hl : len7Of b1 = 127#7 → h.payloadLength < s.params.lenCeiling) (hpos : 0 < h.payloadLength)
    (hcap : h.payloadLength ≤ s.params.payloadCapacity) :
    exec (.feed (b0 :: b1 :: t)) s = .next { s with
      dec := { phase := .awaitPayload, errKind := none, hbuf := [], pbuf := [], hdr := some h }
      response := some (.events []) } := by
  obtain ⟨hc, hd⟩ := hs
  subst hh
  have hfeed := feedBytes_wholeHeader (n := s.raiseCount) hlen hbase (checkLength_data ho hl) hpos hcap []
  rw [List.append_nil, feedBytes_nil, ← hd] at hfeed
  refine (deliver_live hc (by simp [hd]) _).trans ?_
  simp only [hfeed]
  simp [hd]

/-- The second byte of a masked frame whose length is in the 7-bit form. -/
theorem maskedShort_byte1 {n : Nat} (h : n ≤ 125) :
    maskedOf (BitVec.ofNat 8 (128 + n)) = true ∧ (len7Of (BitVec.ofNat 8 (128 + n))).toNat = n := by
  have hall : ∀ m < 126, maskedOf (BitVec.ofNat 8 (128 + m)) = true ∧ (len7Of (BitVec.ofNat 8 (128 + m))).toNat = m := by
    decide
  exact hall n (by omega)

/-- Settles O43: each of the three headers passes its checks, and its fields are its bytes. -/
theorem headerBytesAreResolved : Obligations.HeaderBytesAreResolved := by
  intro s hs
  refine ⟨fun hi lo hpos hcap => ?_, fun b0 b1 b2 b3 b4 b5 b6 b7 len hlen hpos hcap hl => ?_,
    fun n k0 k1 k2 k3 hpos hn hcap => ?_⟩
  · have hbe : beNat [hi, lo] = hi.toNat * 2 ^ 8 + lo.toNat := by simp [beNat]
    have hh : headerOf 0x82#8 0x7E#8 [0x82#8, 0x7E#8, hi, lo] = ⟨true, 2#4, false, beNat [hi, lo], 4, none⟩ := rfl
    rw [hbe] at hh
    exact exec_feed_dataHeader hs rfl hh (by decide) rfl (fun h127 => absurd h127 (by decide)) hpos hcap
  · have hbe : beNat [b0, b1, b2, b3, b4, b5, b6, b7] = len := by simp only [beNat, List.foldl]; omega
    have hh : headerOf 0x82#8 0x7F#8 [0x82#8, 0x7F#8, b0, b1, b2, b3, b4, b5, b6, b7] =
        ⟨true, 2#4, false, beNat [b0, b1, b2, b3, b4, b5, b6, b7], 10, none⟩ := rfl
    rw [hbe] at hh
    exact exec_feed_dataHeader hs rfl hh (by decide) rfl (fun _ => hl) hpos hcap
  · obtain ⟨hm, h7⟩ := maskedShort_byte1 hn
    have hsz : hsize (BitVec.ofNat 8 (128 + n)) = 6 := by simp [hsize, extSize, hm, h7, hn]
    have hh : headerOf 0x82#8 (BitVec.ofNat 8 (128 + n)) [0x82#8, BitVec.ofNat 8 (128 + n), k0, k1, k2, k3] =
        ⟨true, 2#4, true, n, 6, some ⟨k0, k1, k2, k3⟩⟩ := by
      simp [headerOf, lenOf, memRead, hm, h7, hn, hsz, keyOf, finOf, opcodeOf]
    refine exec_feed_dataHeader hs hsz hh (by decide) rfl (fun h127 => ?_) hpos hcap
    have hn127 : n = 127 := h7.symm.trans (congrArg BitVec.toNat h127)
    omega

end Sys2Proof.Machine
end

section
/-! PROOFS. The family of 40_decoder.md: FEED and its fault (R100, R114 to R117), the errors a header raises and the byte that raises
them (R103 to R110), and the frames that are emitted or wait for their payload (R111 to R113, R120 to R126). -/

namespace Sys2Proof

/-! ### The bytes of a frame -/

theorem Frame.len_wf {f : Frame} (hf : f.wf = true) : f.len.wf = true := by
  simp only [Frame.wf, Bool.and_eq_true] at hf
  exact hf.1

/-- The header bytes of a frame (R70). -/
def Frame.header (op : BitVec 4) (f : Frame) : Bytes :=
  f.byte0 op :: f.byte1 :: (f.len.ext ++ keyBytes f.key)

/-- The header the decoder holds of a frame (R110). -/
def Frame.held (op : BitVec 4) (f : Frame) : Header :=
  { fin := f.fin, opcode := op, masked := f.key.isSome, payloadLength := f.len.value
    payloadOffset := hsize f.byte1, mask := f.key }

@[simp] theorem Frame.held_payloadLength (op : BitVec 4) (f : Frame) : (f.held op).payloadLength = f.len.value := rfl

theorem Frame.bytes_eq_header_append (op : BitVec 4) (f : Frame) : f.bytes op = f.header op ++ f.payload := rfl

theorem Frame.header_length (op : BitVec 4) {f : Frame} (hf : f.wf = true) : (f.header op).length = hsize f.byte1 := by
  rw [hsize_byte1 hf]
  simp [Frame.header]
  omega

theorem Frame.take_hsize (op : BitVec 4) {f : Frame} (hf : f.wf = true) : (f.bytes op).take (hsize f.byte1) = f.header op := by
  rw [Frame.bytes_eq_header_append, ← Frame.header_length op hf, List.take_left]

theorem Frame.drop_hsize (op : BitVec 4) {f : Frame} (hf : f.wf = true) : (f.bytes op).drop (hsize f.byte1) = f.payload := by
  rw [Frame.bytes_eq_header_append, ← Frame.header_length op hf, List.drop_left]

/-- The bytes of a frame up to the end of its length field. -/
theorem Frame.take_lengthEnd (op : BitVec 4) {f : Frame} (hf : f.len.wf = true) :
    (f.bytes op).take (2 + extSize f.len.len7) = f.byte0 op :: f.byte1 :: f.len.ext := by
  rw [Nat.add_comm, ← ext_length hf]
  simp [Frame.bytes]

end Sys2Proof

namespace Sys2Proof.Machine

/-! ### A FEED to a live instance -/

/-- The state that a FEED to a live instance leaves, by what its loop answers (R100). -/
def State.afterLoop (s : State) (r : List Event × Decoder) : State :=
  { s with
    dec := r.2
    response := some (.events r.1)
    raiseCount := if r.2.phase = .error then s.raiseCount + 1 else s.raiseCount }

theorem exec_feed_live {s : State} (hc : s.constructed = true) (hp : s.dec.phase ≠ .error) (chunk : Bytes) :
    exec (.feed chunk) s = .next (s.afterLoop (feedBytes s.params s.raiseCount chunk s.dec)) :=
  deliver_live hc hp chunk

theorem exec_feed_dead {s : State} (hc : s.constructed = true) (hp : s.dec.phase = .error) {chunk : Bytes} (hn : chunk ≠ []) :
    exec (.feed chunk) s = .fault .feedAfterError :=
  deliver_dead hc hp hn

/-- Where the loop raises nothing, the index of the free values is as before. -/
theorem State.afterLoop_of_live (s : State) {evs : List Event} {d : Decoder} (hd : d.phase ≠ .error) :
    s.afterLoop (evs, d) = { s with dec := d, response := some (.events evs) } := by
  simp [State.afterLoop, hd]

/-- The loop emits at most one event a byte. -/
theorem feedBytes_events_length_le (p : Params) (n : Nat) (chunk : Bytes) {d : Decoder} (hd : d.phase ≠ .error) :
    (feedBytes p n chunk d).1.length ≤ chunk.length := by
  induction chunk generalizing d with
  | nil => exact le_rfl
  | cons b bs ih =>
    cases hb : decodeByte p b d with
    | raised k => simp [feedBytes_raised hb]
    | ok d' evs =>
      obtain ⟨hd', -, hevs⟩ := decodeByte_ok hd hb
      have hone : evs.length ≤ 1 := by rcases hevs with rfl | ⟨op, fin, q, rfl⟩ <;> simp
      have hrest := ih hd'
      rw [feedBytes_ok hb, List.length_append, List.length_cons]
      omega

/-- Settles O38: the loop is total, and each byte emits at most one event. -/
theorem feedCompletesUnlessDead : Obligations.FeedCompletesUnlessDead := by
  intro s chunk hc
  exact ⟨fun hp => ⟨_, _, exec_feed_live hc hp chunk, rfl, feedBytes_events_length_le _ _ chunk hp⟩,
    fun hp => exec_feed_dead hc hp⟩

/-- Settles O37: a delivery of no bytes. -/
theorem emptyFeedIsNoOp : Obligations.EmptyFeedIsNoOp := fun _ hc => deliver_nil hc

/-- Settles O44: no case of a delivery reads or writes `cfg_masking`. -/
theorem decoderIgnoresMasking : Obligations.DecoderIgnoresMasking := by
  intro s t m chunk h
  rcases deliver_cases chunk s with ⟨hc, hd⟩ | ⟨hc, -, rfl, hd⟩ | ⟨-, -, -, hd⟩ | ⟨hc, hp, hd⟩ <;> cases hd.symm.trans h
  · exact deliver_unconstructed (s := { s with cfgMasking := m }) hc chunk
  · exact deliver_nil (s := { s with cfgMasking := m }) hc
  · exact deliver_live (s := { s with cfgMasking := m }) hc hp chunk

/-! ### A stream cut into chunks -/

/-- Settles O34: the loop on `c1 ++ c2` stops where the loop on `c1` does. -/
theorem bytesAfterAnErrorAreNotConsumed : Obligations.BytesAfterAnErrorAreNotConsumed := by
  intro s t c1 c2 hc hp h he
  cases (exec_feed_live hc hp c1).symm.trans h
  have hdead : (feedBytes s.params s.raiseCount c1 s.dec).2.phase = .error := he
  rw [exec_feed_live hc hp, feedBytes_append _ _ _ _ _ hp, if_pos hdead]

/-- Chunks fed in order give the events, the decoder and the error count of one loop over their concatenation (R117): by induction on
the chunks, the first of which ends in ERROR or leaves a live decoder for the others. -/
theorem feedChunks_eq_loop (chunks : List Bytes) {s : State} (hc : s.constructed = true) (hp : s.dec.phase ≠ .error)
    {r : List Event × Decoder} (hr : feedBytes s.params s.raiseCount chunks.flatten s.dec = r) :
    ∃ t, feedChunks chunks s = some (r.1, t) ∧ t.dec = r.2 ∧ t.raiseCount = (s.afterLoop r).raiseCount := by
  subst hr
  induction chunks generalizing s with
  | nil => exact ⟨s, rfl, rfl, (if_neg hp).symm⟩
  | cons c cs ih =>
    simp only [feedChunks, exec_feed_live hc hp, List.flatten_cons, feedBytes_append _ _ _ _ _ hp]
    obtain ⟨evs, d⟩ := feedBytes s.params s.raiseCount c s.dec
    by_cases hd : d.phase = .error
    · rw [if_pos hd]
      exact ⟨_, if_pos hd, rfl, rfl⟩
    · obtain ⟨t, ht, hdec, hcount⟩ := ih (s := { s with dec := d, response := some (.events evs) }) hc hd
      rw [if_neg hd, State.afterLoop_of_live s hd, if_neg hd, ht]
      exact ⟨t, rfl, hdec, hcount⟩

/-- Settles O45: both ways of feeding are one loop over the stream. -/
theorem chunkInvariance : Obligations.ChunkInvariance := by
  intro s chunks hc hp
  obtain ⟨t, hchunks, hdec, hcount⟩ := feedChunks_eq_loop chunks hc hp rfl
  exact ⟨_, t, _, hchunks, exec_feed_live hc hp _, rfl, hdec, hcount⟩

/-! ### The stop -/

/-- FEED's word is the one that decodes to a FEED, of the command's data (R81). -/
theorem decodeCommand_feed {c : Command} (h : c.word = 0x2000#16) : decodeCommand c = .ok (.feed c.data) := by
  simp [decodeCommand, decodeFields, h]

/-- An instruction whose command's word is not FEED's is no delivery of bytes, and completes. -/
theorem exec_completes_of_decode {c : Command} {i : Instr} (h : decodeCommand c = .ok i) (hw : c.word ≠ 0x2000#16) (s : State) :
    ∃ t, exec i s = .next t := by
  have hbuild : ∀ op p, ∃ t, build op p s = .next t := fun op p => by
    obtain ⟨t, ht, -⟩ := build_ignores_dec op p s s.dec
    exact ⟨t, ht⟩
  have hlegal := (not_illegalWord_iff c.word).mp ((decodeCommand_ok_iff c).mp ⟨i, h⟩)
  simp only [legalWords, List.mem_cons, List.not_mem_nil, or_false] at hlegal
  rcases hlegal with e | e | e | e | e | e | e | e | e | e | e | e <;>
    simp [decodeCommand, decodeFields, buildInstr, e] at h <;> subst h
  -- the six of BUILD, then INIT twice, FEED, MASK twice, STATUS
  iterate 6 exact hbuild _ _
  · exact ⟨_, rfl⟩
  · exact ⟨_, rfl⟩
  · exact absurd e hw
  · exact ⟨_, rfl⟩
  · exact ⟨_, rfl⟩
  · exact ⟨_, rfl⟩

theorem exec_feed_fault_iff (s : State) (chunk : Bytes) :
    exec (.feed chunk) s = .fault .feedAfterError ↔ s.constructed = true ∧ s.dec.phase = .error ∧ chunk ≠ [] := by
  refine ⟨fun h => ?_, fun ⟨hc, hp, hn⟩ => exec_feed_dead hc hp hn⟩
  rcases deliver_cases chunk s with ⟨-, hd⟩ | ⟨-, -, -, hd⟩ | ⟨hc, hp, hn, -⟩ | ⟨-, -, hd⟩
  · cases hd.symm.trans h
  · cases hd.symm.trans h
  · exact ⟨hc, hp, hn⟩
  · cases hd.symm.trans h

theorem observe_fault_iff (c : Command) (x : Result) : observe c x = .fault .feedAfterError ↔ x = .fault .feedAfterError := by
  cases x with
  | next t => cases ht : t.response <;> simp [observe, ht]
  | fault e => simp [observe]
  | refused e => simp [observe]

/-- A step faults exactly on a command that breaks the host's duty (R114, R210). -/
theorem step_fault_iff {s : State} {c : Command} {rest : List Command} (h : s.pending = c :: rest) :
    step s = .fault .feedAfterError ↔ ¬ Conforming s c := by
  by_cases hw : c.word = 0x2000#16
  · rw [step_of_decode h (decodeCommand_feed hw), observe_fault_iff, exec_feed_fault_iff]
    simp [Conforming, hw]
  · have hconf : Conforming s c := fun hduty => hw hduty.2.2.1
    refine iff_of_false (fun hf => ?_) (not_not_intro hconf)
    cases hd : decodeCommand c with
    | error e => cases (step_of_undecodable h hd).symm.trans hf
    | ok i =>
      obtain ⟨t, ht⟩ := exec_completes_of_decode hd hw { s with pending := rest }
      rw [step_of_decode h hd, observe_fault_iff, ht] at hf
      cases hf

/-- Settles O9: a step that does not fault has a next state. -/
theorem stopsOnlyOnFeedAfterError : Obligations.StopsOnlyOnFeedAfterError := by
  intro s c rest h
  have hfault := step_fault_iff h
  refine ⟨⟨fun ⟨t, ht⟩ => ?_, fun hconf => ?_⟩, hfault⟩
  · by_contra hn
    cases ht.symm.trans (hfault.mpr hn)
  · rcases step_cases h with hf | ⟨u, r, hs, -⟩
    · exact absurd hconf (hfault.mp hf)
    · exact ⟨_, hs⟩

/-! ### The wire instructions -/

theorem exec_wireRow {f : Frame} {r : BitVec 4 × Instr} (hr : r ∈ wireRows f) (s : State) :
    exec r.2 s = exec (.feed (f.bytes r.1)) s := by
  rw [snd_of_mem_wireRows hr, exec_wire_eq_feed]

/-- Settles O7: each wire row is a delivery of what the encoder writes; a command's encoding is no wire encoding. -/
theorem wireInstructionIsFeedOfItsBytes : Obligations.WireInstructionIsFeedOfItsBytes := by
  intro i bytes s h
  cases i with
  | continuation f | text f | binary f | invalid3 f | invalid4 f | invalid5 f | invalid6 f | invalid7 f | close f | ping f
  | pong f | invalidB f | invalidC f | invalidD f | invalidE f | invalidF f => cases h; rfl
  | mask b k n => cases k <;> cases h
  -- the commands with no operand but data
  | _ => cases h

/-- Settles O16: a delivery writes nothing else. -/
theorem feedKeepsAllButTheDecoder : Obligations.FeedKeepsAllButTheDecoder := by
  intro s t chunk f
  refine ⟨fun h => deliver_frame h, fun r hr h => ?_⟩
  rw [exec_wireRow hr] at h
  exact deliver_frame h

/-! ### Rows -/

theorem validRows_subset_wireRows (f : Frame) : validRows f ⊆ wireRows f := by
  simp [validRows, wireRows]

theorem controlRows_subset_validRows (f : Frame) : controlRows f ⊆ validRows f := by
  simp [controlRows, validRows]

theorem invalidRows_subset_wireRows (f : Frame) : invalidRows f ⊆ wireRows f := by
  simp [invalidRows, wireRows]

theorem controlOpcode_of_mem_controlRows {f : Frame} {r : BitVec 4 × Instr} (h : r ∈ controlRows f) : controlOpcode r.1 = true := by
  simp only [controlRows, List.mem_cons, List.not_mem_nil, or_false] at h
  rcases h with rfl | rfl | rfl <;> rfl

theorem validOpcode_of_mem_invalidRows {f : Frame} {r : BitVec 4 × Instr} (h : r ∈ invalidRows f) : validOpcode r.1 = false := by
  simp only [invalidRows, List.mem_cons, List.not_mem_nil, or_false] at h
  rcases h with rfl | rfl | rfl | rfl | rfl | rfl | rfl | rfl | rfl | rfl <;> rfl

/-! ### The checks on a frame's bytes -/

/-- The header the decoder makes of a frame's header bytes is the frame's (R72, R73, R110). -/
theorem headerOf_header (op : BitVec 4) {f : Frame} (hf : f.wf = true) :
    headerOf (f.byte0 op) f.byte1 (f.header op) = f.held op := by
  have hkey : (if f.key.isSome then keyOf (memRead (f.header op) (hsize f.byte1 - 4) 4) else none) = f.key := by
    cases hk : f.key with
    | none => rfl
    | some k =>
      have hoff : hsize f.byte1 - 4 = f.len.ext.length + 2 := by
        rw [hsize_byte1 hf, hk]
        simp
        omega
      simp [Frame.header, memRead, hoff, hk]
      rfl
  simp only [headerOf, Frame.held, finOf_byte0, opcodeOf_byte0, maskedOf_byte1, len7Of_byte1, hkey]
  rw [Frame.header, lenOf_frame (Frame.len_wf hf)]

/-- The first byte of a frame of valid opcode passes its checks (R104 to R106). -/
theorem checkBase_validRow {f : Frame} {r : BitVec 4 × Instr} (hr : r ∈ validRows f) (hrsv : f.rsvClear)
    (hfin : controlOpcode r.1 = true → f.fin = true) : checkBase (f.byte0 r.1) = none := by
  obtain ⟨h1, h2, h3⟩ := hrsv
  rw [checkBase_byte0]
  simpa [h1, h2, h3, validOpcode_of_mem_validRows hr] using hfin

/-- `checkLength` on a frame's bytes, by the frame's fields (R108, R109). -/
theorem checkLength_bytes (p : Params) (op : BitVec 4) {f : Frame} (hf : f.len.wf = true) :
    checkLength p (f.byte0 op) f.byte1 (f.byte0 op :: f.byte1 :: f.len.ext) =
      if f.len.len7 = 127#7 ∧ p.lenCeiling ≤ f.len.value then some .unsupportedLength
      else checkControlLen p op f.len.value := by
  have hlen := lenOf_frame hf (f.byte0 op) f.byte1 []
  rw [List.append_nil] at hlen
  simp only [checkLength, checkLen, len7Of_byte1, opcodeOf_byte0, hlen]
  split_ifs <;> rfl

/-- Before its length field is complete, the header of a frame whose first byte passes may stand in the scratch. -/
theorem scratchOk_beforeLength {p : Params} {op : BitVec 4} {f : Frame} {n : Nat} (hbase : checkBase (f.byte0 op) = none)
    (hn : n < 2 + extSize f.len.len7) : ScratchOk p ((f.bytes op).take n) := by
  match n with
  | 0 | 1 => trivial
  | n + 2 =>
    refine ⟨?_, hbase, fun he => absurd he ?_⟩
    · simp [hsize]
      omega
    · simp
      omega

/-- The byte that completes the header of a frame that passes its earlier checks is left to `finalize` (R101, R110). -/
theorem headerStep_header {p : Params} {op : BitVec 4} {f : Frame} (hf : f.wf = true) (hbase : checkBase (f.byte0 op) = none)
    (hl : f.len.value < p.lenCeiling) (hc : p.enforceControlLen = true → controlOpcode op = true → f.len.value ≤ 125) :
    headerStep p { Decoder.initial with hbuf := f.header op } =
      finalize p (f.byte0 op) f.byte1 { Decoder.initial with hbuf := f.header op } := by
  rw [headerStep_pass rfl (fun _ => hbase) (fun _ => checkLength_frame hf hl hc _), if_neg]
  rw [hsize_byte1 hf]
  simp
  omega

/-! ### A chunk cut at a header byte -/

/-- A chunk that starts a frame, cut after `n` bytes that may stand in the scratch: they go there, and the next byte meets
`headerStep` with the first `n + 1`. -/
theorem feedBytes_cut {p : Params} {m n : Nat} {bytes : Bytes} (h : ScratchOk p (bytes.take n)) (hn : n < bytes.length) :
    ∃ b, feedBytes p m bytes Decoder.initial = feedBytes p m (b :: bytes.drop (n + 1)) { Decoder.initial with hbuf := bytes.take n } ∧
      decodeByte p b { Decoder.initial with hbuf := bytes.take n } =
        headerStep p { Decoder.initial with hbuf := bytes.take (n + 1) } := by
  refine ⟨bytes[n], ?_, ?_⟩
  · rw [← List.drop_eq_getElem_cons hn, ← feedBytes_header h, List.take_append_drop]
  · rw [decodeByte_header rfl, List.take_succ_eq_append_getElem hn]
    rfl

theorem feedBytes_cut_raised {p : Params} {m n : Nat} {bytes : Bytes} {k : ErrKind} (h : ScratchOk p (bytes.take n))
    (hn : n < bytes.length) (hk : headerStep p { Decoder.initial with hbuf := bytes.take (n + 1) } = .raised k) :
    feedBytes p m bytes Decoder.initial = ([.error k], Decoder.raise p m k) := by
  obtain ⟨b, hfeed, hstep⟩ := feedBytes_cut (m := m) h hn
  rw [hfeed, feedBytes_raised (hstep.trans hk)]

theorem feedBytes_cut_ok {p : Params} {m n : Nat} {bytes : Bytes} {d : Decoder} {evs : List Event} (h : ScratchOk p (bytes.take n))
    (hn : n < bytes.length) (hd : headerStep p { Decoder.initial with hbuf := bytes.take (n + 1) } = .ok d evs) :
    feedBytes p m bytes Decoder.initial =
      (evs ++ (feedBytes p m (bytes.drop (n + 1)) d).1, (feedBytes p m (bytes.drop (n + 1)) d).2) := by
  obtain ⟨b, hfeed, hstep⟩ := feedBytes_cut (m := m) h hn
  rw [hfeed, feedBytes_ok (hstep.trans hd)]

/-- A FEED at the start of a frame, by what the loop answers from the initial decoder. -/
theorem exec_feed_fresh {s : State} (hs : s.Fresh) {chunk : Bytes} {r : List Event × Decoder}
    (h : feedBytes s.params s.raiseCount chunk Decoder.initial = r) : exec (.feed chunk) s = .next (s.afterLoop r) := by
  obtain ⟨hc, hd⟩ := hs
  rw [exec_feed_live hc (by simp [hd]), hd, h]

/-- A FEED of bytes that may stand in the scratch puts them there, and raises and emits nothing. -/
theorem exec_feed_scratch {s : State} (hs : s.Fresh) {xs : Bytes} (h : ScratchOk s.params xs) :
    exec (.feed xs) s = .next { s with dec := { s.dec with hbuf := xs }, response := some (.events []) } := by
  have hfeed := feedBytes_header (n := s.raiseCount) h []
  rw [List.append_nil, feedBytes_nil] at hfeed
  rw [exec_feed_fresh hs hfeed, State.afterLoop_of_live _ (by simp), hs.2]

/-- Settles O42: any byte alone may stand in the scratch. -/
theorem firstByteRaisesNothing : Obligations.FirstByteRaisesNothing :=
  fun _ _ hs => exec_feed_scratch hs trivial

/-! ### The errors of a header -/

/-- A wire row whose frame raises at its byte `n + 1`: the row raises, does what those bytes alone do, and one byte fewer raises
nothing. -/
theorem raises_at_byte {s : State} {f : Frame} {r : BitVec 4 × Instr} {k : ErrKind} {n : Nat} (hs : s.Fresh) (hr : r ∈ wireRows f)
    (hn : n < (f.bytes r.1).length) (hxs : ScratchOk s.params ((f.bytes r.1).take n))
    (hk : headerStep s.params { Decoder.initial with hbuf := (f.bytes r.1).take (n + 1) } = .raised k) :
    Raises k r.2 s ∧ exec r.2 s = exec (.feed ((f.bytes r.1).take (n + 1))) s ∧
      ∃ t, exec (.feed ((f.bytes r.1).take n)) s = .next t ∧ t.response = some (.events []) ∧ t.dec.phase = .awaitHeader := by
  have hrow : exec r.2 s = .next (s.afterLoop ([.error k], Decoder.raise s.params s.raiseCount k)) := by
    rw [exec_wireRow hr, exec_feed_fresh hs (feedBytes_cut_raised hxs hn hk)]
  have hcut : exec (.feed ((f.bytes r.1).take (n + 1))) s =
      .next (s.afterLoop ([.error k], Decoder.raise s.params s.raiseCount k)) := by
    refine exec_feed_fresh hs (feedBytes_cut_raised (n := n) ?_ ?_ ?_)
    · rwa [List.take_take, Nat.min_eq_left (Nat.le_succ n)]
    · rw [List.length_take]; omega
    · rwa [List.take_take, Nat.min_self]
  refine ⟨⟨_, hrow, rfl, rfl, rfl⟩, hrow.trans hcut.symm, _, exec_feed_scratch hs hxs, rfl, ?_⟩
  rw [hs.2]; rfl

/-- A frame whose first byte fails a check raises at its second (R103). -/
theorem raises_of_checkBase {s : State} {f : Frame} {r : BitVec 4 × Instr} {k : ErrKind} (hs : s.Fresh) (hr : r ∈ wireRows f)
    (hk : checkBase (f.byte0 r.1) = some k) : Raises k r.2 s ∧ exec r.2 s = exec (.feed [f.byte0 r.1, f.byte1]) s := by
  obtain ⟨hraises, hcut, -⟩ := raises_at_byte (n := 1) hs hr (by simp [Frame.bytes]) trivial (headerStep_base rfl hk)
  exact ⟨hraises, hcut⟩

/-- Settles O27: the RSV check is the first of `checkBase`. -/
theorem rsvBitsRaise : Obligations.RsvBitsRaise := by
  intro s f hs hrsv r hr
  have hset : (f.rsv1 || f.rsv2 || f.rsv3) = true := by
    by_contra h
    simp only [Bool.not_eq_true, Bool.or_eq_false_iff] at h
    exact hrsv ⟨h.1.1, h.1.2, h.2⟩
  exact raises_of_checkBase hs hr (by rw [checkBase_byte0, if_pos hset])

/-- Settles O28: with RSV = 0 the opcode check fails. -/
theorem invalidOpcodesRaise : Obligations.InvalidOpcodesRaise := by
  rintro s f hs ⟨h1, h2, h3⟩ r hr
  refine raises_of_checkBase hs (invalidRows_subset_wireRows f hr) ?_
  simp [checkBase_byte0, h1, h2, h3, validOpcode_of_mem_invalidRows hr]

/-- Settles O29: with RSV = 0 and a valid opcode the FIN check fails. -/
theorem controlWithoutFinRaises : Obligations.ControlWithoutFinRaises := by
  rintro s f hs ⟨h1, h2, h3⟩ hfin r hr
  have hvalid := controlRows_subset_validRows f hr
  refine raises_of_checkBase hs (validRows_subset_wireRows f hvalid) ?_
  simp [checkBase_byte0, h1, h2, h3, hfin, validOpcode_of_mem_validRows hvalid, controlOpcode_of_mem_controlRows hr]

/-- A frame whose first byte passes and whose length fails a check raises at the byte that completes its length field (R108, R109). -/
theorem raises_of_checkLength {s : State} {f : Frame} {r : BitVec 4 × Instr} {k : ErrKind} (hs : s.Fresh) (hf : f.len.wf = true)
    (hr : r ∈ wireRows f) (hbase : checkBase (f.byte0 r.1) = none)
    (hk : checkLength s.params (f.byte0 r.1) f.byte1 (f.byte0 r.1 :: f.byte1 :: f.len.ext) = some k) :
    Raises k r.2 s ∧ exec r.2 s = exec (.feed ((f.bytes r.1).take (2 + extSize f.len.len7))) s ∧
      ∃ t, exec (.feed ((f.bytes r.1).take (1 + extSize f.len.len7))) s = .next t ∧ t.response = some (.events []) ∧
        t.dec.phase = .awaitHeader := by
  have htwo : 1 + extSize f.len.len7 + 1 = 2 + extSize f.len.len7 := by omega
  rw [← htwo]
  refine raises_at_byte hs hr ?_ (scratchOk_beforeLength hbase (by omega)) ?_
  · simp [Frame.bytes, ext_length hf]
    omega
  · rw [htwo, Frame.take_lengthEnd _ hf]
    exact headerStep_length rfl (fun _ => hbase) (by rw [len7Of_byte1, ext_length hf]) hk

/-- Settles O30: the ceiling is checked at the byte that completes the length field, which for a 64-bit length is the tenth. -/
theorem overlongFrameRaises : Obligations.OverlongFrameRaises := by
  intro s f n hs hrsv hlen hceil r hr hfin
  have hf : f.len.wf = true := by rw [hlen]; rfl
  have hraise := raises_of_checkLength hs hf (validRows_subset_wireRows f hr) (checkBase_validRow hr hrsv hfin)
    (k := .unsupportedLength) (by rw [checkLength_bytes _ _ hf, hlen]; exact if_pos ⟨rfl, hceil⟩)
  rwa [hlen] at hraise

/-- Settles O31: below the ceiling, the control limit is what `checkLength` checks. -/
theorem longControlFrameRaises : Obligations.LongControlFrameRaises := by
  intro s f hs henf hf hrsv hfin hlong hceil r hr
  have hvalid := controlRows_subset_validRows f hr
  refine raises_of_checkLength hs (Frame.len_wf hf) (validRows_subset_wireRows f hvalid)
    (checkBase_validRow hvalid hrsv fun _ => hfin) ?_
  rw [checkLength_bytes _ _ (Frame.len_wf hf), if_neg (by omega)]
  exact if_pos ⟨henf, controlOpcode_of_mem_controlRows hr, hlong⟩

/-- Settles O32: the capacity is the first check of `finalize`, at the last header byte. -/
theorem overCapacityFrameRaises : Obligations.OverCapacityFrameRaises := by
  intro s f hs hf hrsv hceil hcap r hr hfin hcontrol
  have hbase := checkBase_validRow hr hrsv hfin
  have hlast : hsize f.byte1 - 1 + 1 = hsize f.byte1 := by
    have := (hsize_bounds f.byte1).1
    omega
  have hraise : headerStep s.params { Decoder.initial with hbuf := f.header r.1 } = .raised .capacityExceeded := by
    rw [headerStep_header hf hbase hceil hcontrol]
    simp only [finalize, headerOf_header r.1 hf]
    exact if_pos hcap
  have hcut := raises_at_byte (k := .capacityExceeded) (n := hsize f.byte1 - 1) hs (validRows_subset_wireRows f hr) ?_
    (scratchOk_take hf hbase hceil hcontrol (by omega)) (by rw [hlast, Frame.take_hsize _ hf, hraise])
  · rwa [hlast] at hcut
  · rw [Frame.bytes_eq_header_append, List.length_append, Frame.header_length _ hf]
    omega

/-! ### Payloads and whole frames -/

/-- Masking from offset 0 XORs every byte with the key byte of its lane. -/
theorem applyMask_zero (bytes : Bytes) (k : Key) : applyMask bytes (some k) 0 = bytes.mapIdx (fun i b => b ^^^ keyLane k i) := by
  simp [applyMask, maskFrom_eq_mapIdx]

theorem applyMask_payload (f : Frame) : applyMask f.payload f.key 0 = f.clear := by
  unfold Frame.clear
  cases f.key with
  | none => rfl
  | some k => exact applyMask_zero _ k

/-- Where a header holds a key exactly if its frame is masked, `complete` emits what `applyMask` gives (R112). -/
theorem unmask_of_key {h : Header} (hkey : h.mask.isSome = h.masked) (bytes : Bytes) :
    (if h.masked then applyMask bytes h.mask 0 else bytes) = applyMask bytes h.mask 0 := by
  rw [← hkey]
  cases h.mask <;> rfl

/-- The header of a frame that passes every check and announces a payload leaves it held (R110). -/
theorem feedBytes_frameHeader {p : Params} {n : Nat} {op : BitVec 4} {f : Frame} (hf : f.wf = true)
    (hbase : checkBase (f.byte0 op) = none) (hok : f.lengthOk p op) (hpos : 0 < f.len.value) (rest : Bytes) :
    feedBytes p n (f.header op ++ rest) Decoder.initial =
      feedBytes p n rest { Decoder.initial with phase := .awaitPayload, hdr := some (f.held op) } := by
  obtain ⟨hceil, hcontrol, hcap⟩ := hok
  have hlen : (headerOf (f.byte0 op) f.byte1 (f.header op)).payloadLength = f.len.value := by simp [headerOf_header op hf]
  rw [← headerOf_header op hf]
  refine feedBytes_wholeHeader ?_ hbase (checkLength_frame hf hceil hcontrol _) (hpos.trans_eq hlen.symm) (hlen.trans_le hcap) rest
  rw [hsize_byte1 hf, List.length_append, Nat.add_assoc]

/-- The header of a frame that passes every check and announces no payload is emitted at once (R110). -/
theorem feedBytes_emptyFrame {p : Params} {n : Nat} {op : BitVec 4} {f : Frame} (hf : f.wf = true)
    (hbase : checkBase (f.byte0 op) = none) (hok : f.lengthOk p op) (hzero : f.len.value = 0) (hnil : f.payload = []) :
    feedBytes p n (f.bytes op) Decoder.initial = ([.emit op f.fin []], Decoder.initial) := by
  obtain ⟨hceil, hcontrol, hcap⟩ := hok
  have hpos := (hsize_bounds f.byte1).1
  have hlast : hsize f.byte1 - 1 + 1 = hsize f.byte1 := by omega
  have hlen : (f.bytes op).length = hsize f.byte1 := by
    rw [Frame.bytes_eq_header_append, hnil, List.append_nil, Frame.header_length op hf]
  have hemit : headerStep p { Decoder.initial with hbuf := f.header op } = .ok Decoder.initial [.emit op f.fin []] := by
    rw [headerStep_header hf hbase hceil hcontrol]
    simp only [finalize, headerOf_header op hf, Frame.held_payloadLength]
    rw [if_neg (Nat.not_lt.mpr hcap), if_pos hzero]
    rfl
  rw [feedBytes_cut_ok (scratchOk_take (n := hsize f.byte1 - 1) hf hbase hceil hcontrol (by omega)) (by omega)
    (by rw [hlast, Frame.take_hsize _ hf, hemit]), hlast, Frame.drop_hsize _ hf, hnil]
  rfl

/-- The bytes of a whole frame that passes every check emit it, unmasked, and leave the decoder at the start of a frame. -/
theorem feedBytes_wholeFrame {p : Params} {n : Nat} {op : BitVec 4} {f : Frame} (hf : f.wf = true)
    (hbase : checkBase (f.byte0 op) = none) (hok : f.lengthOk p op) (hwhole : f.payload.length = f.len.value) :
    feedBytes p n (f.bytes op) Decoder.initial = ([.emit op f.fin f.clear], Decoder.initial) := by
  by_cases hzero : f.len.value = 0
  · have hnil : f.payload = [] := List.length_eq_zero_iff.mp (hwhole.trans hzero)
    have hclear : f.clear = [] := by
      rw [← applyMask_payload, hnil]
      cases f.key <;> rfl
    rw [feedBytes_emptyFrame hf hbase hok hzero hnil, hclear]
  · have hemit := feedBytes_payload_complete p n (f.held op) f.payload []
      { Decoder.initial with phase := .awaitPayload, hdr := some (f.held op) } rfl rfl
      (List.ne_nil_of_length_pos (by omega)) (by simpa [Decoder.written] using hwhole)
    rw [unmask_of_key (show (f.held op).mask.isSome = (f.held op).masked from rfl), List.append_nil] at hemit
    rw [Frame.bytes_eq_header_append, feedBytes_frameHeader hf hbase hok (Nat.pos_of_ne_zero hzero), hemit,
      ← applyMask_payload]
    rfl

/-- Settles O39: the loop over the frame's bytes, from the start of a frame, ends there again. -/
theorem wholeFrameIsEmitted : Obligations.WholeFrameIsEmitted := by
  intro s f hs hf hrsv hwhole r hr hfin hok
  have hfeed := feedBytes_wholeFrame (n := s.raiseCount) hf (checkBase_validRow hr hrsv hfin) hok hwhole
  rw [exec_wireRow (validRows_subset_wireRows f hr), exec_feed_fresh hs hfeed, State.afterLoop_of_live _ (by simp), ← hs.2]

/-- Settles O40: the header is held, and the payload bytes that follow it are stored. -/
theorem partialFrameWaits : Obligations.PartialFrameWaits := by
  intro s f hs hf hrsv hpart r hr hfin hok
  have hfeed : feedBytes s.params s.raiseCount (f.bytes r.1) Decoder.initial =
      ([], { Decoder.initial with phase := .awaitPayload, hdr := some (f.held r.1), pbuf := f.payload }) := by
    have hstore := feedBytes_payload_wait s.params s.raiseCount (f.held r.1) f.payload []
      { Decoder.initial with phase := .awaitPayload, hdr := some (f.held r.1) } rfl rfl
      (by simpa [Decoder.written] using hpart)
    rw [List.append_nil] at hstore
    rw [Frame.bytes_eq_header_append, feedBytes_frameHeader hf (checkBase_validRow hr hrsv hfin) hok (by omega), hstore]
    rfl
  rw [exec_wireRow (validRows_subset_wireRows f hr), exec_feed_fresh hs hfeed, State.afterLoop_of_live _ (by simp), hs.2]
  rfl

/-- Settles O41: by whether the byte completes the payload. -/
theorem payloadByteStoresOrCompletes : Obligations.PayloadByteStoresOrCompletes := by
  intro s h b hc hp hh hw hkey
  have hlive : s.dec.phase ≠ .error := by simp [hp]
  rw [exec_feed_live hc hlive]
  by_cases hlt : s.dec.written + 1 < h.payloadLength
  · rw [if_pos hlt, feedBytes_wait (decodeByte_store hp hh hlt.ne), feedBytes_nil, State.afterLoop_of_live _ (by simp [hp])]
    rfl
  · rw [if_neg hlt, feedBytes_ok (decodeByte_complete hp hh (by omega)), feedBytes_nil, State.afterLoop_of_live _ (by simp),
      unmask_of_key hkey]
    cases h.mask with
    | none => rfl
    | some k =>
      simp only [applyMask_zero, keyLane_eq]
      rfl

end Sys2Proof.Machine
end

section
/-! PROOFS. The family of 41_masker.md: the lane law, the involution and the shift law of `applyMask` (R152 to R154), and of MASK. -/

namespace Sys2Proof.Machine

/-- MASK completes in every state, and its answer is its only effect (R151). -/
theorem exec_mask (bytes : Bytes) (key : Option Key) (offset : Nat) (s : State) :
    exec (.mask bytes key offset) s = .next { s with response := some (.bytes (applyMask bytes key offset)) } := rfl

/-! ### The laws of `applyMask` -/

/-- Masking skips the bytes below the offset and masks the others as bytes of their own (R154). -/
theorem applyMask_eq_take_append (bytes : Bytes) (key : Option Key) (offset : Nat) :
    applyMask bytes key offset = bytes.take offset ++ applyMask (bytes.drop offset) key 0 := by
  cases key with
  | none => exact (List.take_append_drop offset bytes).symm
  | some k => rfl

/-- The lane law (R153): the key index counts from the offset. -/
theorem applyMask_eq_mapIdx (bytes : Bytes) (k : Key) (offset : Nat) :
    applyMask bytes (some k) offset =
      bytes.mapIdx fun t b => if t < offset then b else b ^^^ keyLane k (t - offset) := by
  rw [applyMask_eq_take_append, applyMask_zero]
  refine List.ext_getElem (by simp; omega) fun t _ ht => ?_
  rw [List.length_mapIdx] at ht
  by_cases hlow : t < offset
  · rw [List.getElem_append_left (by simp; omega), List.getElem_take, List.getElem_mapIdx, if_pos hlow]
  · have hskip : (bytes.take offset).length = offset := by simp; omega
    rw [List.getElem_append_right (by omega), List.getElem_mapIdx, List.getElem_mapIdx, List.getElem_drop, if_neg hlow]
    simp only [hskip, Nat.add_sub_cancel' (Nat.le_of_not_lt hlow)]

/-- The involution (R152): each byte meets the same key byte twice, or none. -/
theorem applyMask_applyMask (bytes : Bytes) (k : Key) (offset : Nat) :
    applyMask (applyMask bytes (some k) offset) (some k) offset = bytes := by
  refine List.ext_getElem (by simp) fun t _ _ => ?_
  simp only [applyMask_eq_mapIdx, List.getElem_mapIdx]
  by_cases hlow : t < offset
  · simp only [if_pos hlow]
  · simp only [if_neg hlow, BitVec.xor_assoc, BitVec.xor_self, BitVec.xor_zero]

/-! ### The obligations -/

/-- Settles O19: the lane law of `applyMask`, with the key byte read from the list of the key's four. -/
theorem maskLaneLaw : Obligations.MaskLaneLaw := by
  intro bytes key offset s
  refine ⟨_, exec_mask bytes key offset s, applyMask_length .., fun t _ h' => ?_⟩
  cases key with
  | none => rfl
  | some k => simp only [applyMask_eq_mapIdx, List.getElem_mapIdx, keyLane_eq]

/-- Settles O20: the second MASK reads the answer of the first. -/
theorem maskIsAnInvolution : Obligations.MaskIsAnInvolution := by
  intro bytes k offset s t out hfirst hout
  rw [exec_mask] at hfirst
  cases hfirst
  cases hout
  rw [exec_mask, applyMask_applyMask]

/-- Settles O21: both MASKs answer what `applyMask` gives, which the shift law relates. -/
theorem maskShiftLaw : Obligations.MaskShiftLaw := by
  intro bytes key offset s _
  refine ⟨_, exec_mask (bytes.drop offset) key 0 s, ?_⟩
  rw [exec_mask, applyMask_eq_take_append]

end Sys2Proof.Machine
end

section
/-! PROOFS. The family of 42_encoder.md: what BUILD answers (R160, R164 to R166), the bytes and the size of a built frame (R161 to R163),
and the round trip through the decoder (R168). -/

namespace Sys2Proof

/-! ### The shortest length form (R162) -/

/-- The length field of the shortest form. -/
def LenField.shortest (n : Nat) : LenField :=
  if n ≤ 125 then .short (BitVec.ofNat 7 n) else if n ≤ 65535 then .ext16 (BitVec.ofNat 16 n) else .ext64 (BitVec.ofNat 64 n)

/-- The fields of the shortest form are those that the encoder writes, and hold the length. -/
theorem LenField.shortest_fields {n : Nat} (hn : n < 2 ^ 64) :
    (shortest n).wf = true ∧ (shortest n).value = n ∧ (shortest n).len7 = BitVec.ofNat 7 (Machine.buildLen7 n) ∧
      (shortest n).ext = beBytes (Machine.buildExt n) n := by
  by_cases h : n ≤ 125
  · have hmod : n % 128 = n := Nat.mod_eq_of_lt (by omega)
    simp [shortest, wf, value, len7, ext, Machine.buildLen7, Machine.buildExt, beBytes, h, hmod]
  · by_cases h' : n ≤ 65535
    · have hmod : n % 65536 = n := Nat.mod_eq_of_lt (by omega)
      simp [shortest, wf, value, len7, ext, Machine.buildLen7, Machine.buildExt, h, h', hmod]
    · have hmod : n % 18446744073709551616 = n := Nat.mod_eq_of_lt hn
      simp [shortest, wf, value, len7, ext, Machine.buildLen7, Machine.buildExt, h, h', hmod]

end Sys2Proof

namespace Sys2Proof.Machine

/-! ### What BUILD answers -/

/-- Each of the six builders is `build` with its opcode (R170 to R175). -/
theorem exec_buildRow {p : Bytes} {r : BitVec 4 × Instr} (hr : r ∈ buildRows p) (s : State) : exec r.2 s = build r.1 p s := by
  simp only [buildRows, List.mem_cons, List.not_mem_nil, or_false] at hr
  rcases hr with rfl | rfl | rfl | rfl | rfl | rfl <;> rfl

/-- The opcodes of the six builders are the six valid ones (R74). -/
theorem validOpcode_of_mem_buildRows {p : Bytes} {r : BitVec 4 × Instr} (hr : r ∈ buildRows p) : validOpcode r.1 = true := by
  simp only [buildRows, List.mem_cons, List.not_mem_nil, or_false] at hr
  rcases hr with rfl | rfl | rfl | rfl | rfl | rfl <;> rfl

theorem build_overlong {s : State} {p : Bytes} (hc : s.constructed = true) (hl : s.params.lenCeiling ≤ p.length) (op : BitVec 4) :
    build op p s = .next (s.respond (.err .unsupportedLength)) := by
  rw [build, whenConstructed_true hc, if_pos hl]

theorem build_masked {s : State} {p : Bytes} (hc : s.constructed = true) (hm : s.cfgMasking = true)
    (hl : p.length < s.params.lenCeiling) (op : BitVec 4) :
    build op p s = .next (s.consumeDraw.respond (.frame (encodeFrame op p (some s.nextDraw)))) := by
  rw [build, whenConstructed_true hc, if_neg (Nat.not_le.mpr hl), if_pos hm]

theorem build_unmasked {s : State} {p : Bytes} (hc : s.constructed = true) (hm : s.cfgMasking = false)
    (hl : p.length < s.params.lenCeiling) (op : BitVec 4) :
    build op p s = .next (s.respond (.frame (encodeFrame op p none))) := by
  rw [build, whenConstructed_true hc, if_neg (Nat.not_le.mpr hl), if_neg (by simp [hm])]

/-- Below the ceiling a constructed instance answers the encoded frame, with a key exactly if it masks (R160). -/
theorem build_answers_frame {s : State} {p : Bytes} (hc : s.constructed = true) (hl : p.length < s.params.lenCeiling)
    (op : BitVec 4) :
    ∃ t key, build op p s = .next t ∧ t.response = some (.frame (encodeFrame op p key)) := by
  cases hm : s.cfgMasking with
  | false => exact ⟨_, none, build_unmasked hc hm hl op, rfl⟩
  | true => exact ⟨_, some s.nextDraw, build_masked hc hm hl op, rfl⟩

/-- A frame that BUILD answers is the encoded one, with a key exactly if the instance masks. -/
theorem frame_of_build {op : BitVec 4} {p bytes : Bytes} {s t : State} (h : build op p s = .next t)
    (hframe : t.response = some (.frame bytes)) : ∃ key, key.isSome = s.cfgMasking ∧ bytes = encodeFrame op p key := by
  rcases build_cases op p s with ⟨-, hb⟩ | ⟨-, -, hb⟩ | ⟨-, -, hm, hb⟩ | ⟨-, -, hm, hb⟩ <;> cases hb.symm.trans h <;> cases hframe
  · exact ⟨some s.nextDraw, hm.symm, rfl⟩
  · exact ⟨none, hm.symm, rfl⟩

/-! ### The bytes of a built frame -/

/-- Byte 1 of a built frame: MASK and the 7-bit length field (R161). -/
def buildByte1 (key : Option Key) (len7 : Nat) : Byte :=
  (if key.isSome then 0x80#8 else 0x00#8) ||| BitVec.ofNat 8 len7

/-- MASK and the 7-bit field do not overlap. -/
theorem buildByte1_eq_append (key : Option Key) {n : Nat} (hn : n < 128) :
    buildByte1 key n = bit key.isSome ++ BitVec.ofNat 7 n := by
  have h : ∀ m : Bool, ∀ n < 128, (if m then 0x80#8 else 0x00#8) ||| BitVec.ofNat 8 n = bit m ++ BitVec.ofNat 7 n := by decide
  exact h _ n hn

theorem buildByte1_none (n : Nat) : buildByte1 none n = BitVec.ofNat 8 n := BitVec.zero_or

theorem buildByte1_some (k : Key) {n : Nat} (hn : n < 128) : buildByte1 (some k) n = BitVec.ofNat 8 (128 + n) := by
  have h : ∀ n < 128, 0x80#8 ||| BitVec.ofNat 8 n = BitVec.ofNat 8 (128 + n) := by decide
  exact h n hn

theorem buildLen7_lt (len : Nat) : buildLen7 len < 128 := by
  unfold buildLen7
  split_ifs <;> omega

theorem buildHeader_short {len : Nat} (h : len ≤ 125) (op : BitVec 4) (key : Option Key) :
    buildHeader op len key = [0x80#8 ||| op.setWidth 8, buildByte1 key len] ++ keyBytes key := by
  simp [buildHeader, buildByte1, buildLen7, buildExt, beBytes, h]

theorem buildHeader_ext16 {len : Nat} (h : ¬ len ≤ 125) (h' : len ≤ 65535) (op : BitVec 4) (key : Option Key) :
    buildHeader op len key =
      [0x80#8 ||| op.setWidth 8, buildByte1 key 126, BitVec.ofNat 8 (len / 2 ^ 8), BitVec.ofNat 8 len] ++ keyBytes key := by
  simp [buildHeader, buildByte1, buildLen7, buildExt, beBytes, h, h']

theorem buildHeader_ext64 {len : Nat} (h : ¬ len ≤ 125) (h' : ¬ len ≤ 65535) (op : BitVec 4) (key : Option Key) :
    buildHeader op len key =
      [0x80#8 ||| op.setWidth 8, buildByte1 key 127, BitVec.ofNat 8 (len / 2 ^ 56), BitVec.ofNat 8 (len / 2 ^ 48),
       BitVec.ofNat 8 (len / 2 ^ 40), BitVec.ofNat 8 (len / 2 ^ 32), BitVec.ofNat 8 (len / 2 ^ 24), BitVec.ofNat 8 (len / 2 ^ 16),
       BitVec.ofNat 8 (len / 2 ^ 8), BitVec.ofNat 8 len] ++ keyBytes key := by
  simp [buildHeader, buildByte1, buildLen7, buildExt, beBytes, h, h']

/-- The size of a built frame (R163). -/
theorem encodeFrame_length (op : BitVec 4) (p : Bytes) (key : Option Key) :
    (encodeFrame op p key).length = buildOffset p.length key + p.length := by
  rw [encodeFrame, applyMask_length, List.length_append, buildHeader_length]

/-! ### A built frame as the decoder reads it -/

/-- The frame that the encoder makes of a payload: FIN = 1, RSV = 0, the shortest length form (R161, R162). -/
def builtFrame (p : Bytes) (key : Option Key) : Frame :=
  { fin := true, rsv1 := false, rsv2 := false, rsv3 := false, len := .shortest p.length, key := key, payload := applyMask p key 0 }

theorem builtFrame_payload_length (p : Bytes) (key : Option Key) : (builtFrame p key).payload.length = p.length :=
  applyMask_length ..

/-- Unmasking gives the payload back (R152). -/
theorem builtFrame_clear (p : Bytes) (key : Option Key) : (builtFrame p key).clear = p := by
  rw [← applyMask_payload]
  cases key with
  | none => rfl
  | some k => exact applyMask_applyMask p k 0

theorem builtFrame_wf {p : Bytes} (hp : p.length < 2 ^ 64) (key : Option Key) : (builtFrame p key).wf = true := by
  obtain ⟨hwf, hvalue, -, -⟩ := LenField.shortest_fields hp
  simp [Frame.wf, builtFrame, hwf, hvalue]

/-- The first byte of a built frame of valid opcode passes its checks (R104 to R106). -/
theorem checkBase_builtFrame {op : BitVec 4} (hop : validOpcode op = true) (p : Bytes) (key : Option Key) :
    checkBase ((builtFrame p key).byte0 op) = none := by
  simp [checkBase_byte0, builtFrame, hop]

/-- The header that the encoder writes is that of the built frame. -/
theorem buildHeader_eq_header (op : BitVec 4) {p : Bytes} (hp : p.length < 2 ^ 64) (key : Option Key) :
    buildHeader op p.length key = (builtFrame p key).header op := by
  obtain ⟨-, -, hlen7, hext⟩ := LenField.shortest_fields hp
  have h0 : ∀ op : BitVec 4, 0x80#8 ||| op.setWidth 8 = bit true ++ bit false ++ bit false ++ bit false ++ op := by decide
  have h1 := buildByte1_eq_append key (buildLen7_lt p.length)
  rw [buildByte1, ← hlen7] at h1
  rw [buildHeader, h0, h1, ← hext]
  rfl

/-- The encoder's bytes are those of the built frame. -/
theorem encodeFrame_eq_bytes (op : BitVec 4) {p : Bytes} (hp : p.length < 2 ^ 64) (key : Option Key) :
    encodeFrame op p key = (builtFrame p key).bytes op := by
  rw [encodeFrame_eq, buildHeader_eq_header op hp, Frame.bytes_eq_header_append]
  cases key <;> rfl

/-- A FEED of an encoded frame at the start of a frame emits its payload and leaves the instance there (R168). -/
theorem exec_feed_encodeFrame {u : State} {op : BitVec 4} {p : Bytes} (hu : u.Fresh) (hop : validOpcode op = true)
    (hp : p.length < 2 ^ 64) (hceil : p.length < u.params.lenCeiling)
    (hcontrol : u.params.enforceControlLen = true → controlOpcode op = true → p.length ≤ 125)
    (hcap : p.length ≤ u.params.payloadCapacity) (key : Option Key) :
    exec (.feed (encodeFrame op p key)) u = .next { u with response := some (.events [.emit op true p]) } := by
  have hvalue : (builtFrame p key).len.value = p.length := (LenField.shortest_fields hp).2.1
  have hok : (builtFrame p key).lengthOk u.params op := by
    rw [Frame.lengthOk, hvalue]
    exact ⟨hceil, hcontrol, hcap⟩
  have hfeed := feedBytes_wholeFrame (n := u.raiseCount) (builtFrame_wf hp key) (checkBase_builtFrame hop p key) hok
    ((builtFrame_payload_length p key).trans hvalue.symm)
  rw [encodeFrame_eq_bytes op hp, exec_feed_fresh hu hfeed, State.afterLoop_of_live _ (by simp), builtFrame_clear, ← hu.2]
  rfl

/-! ### The obligations -/

/-- Settles O46: the built frame is a whole frame that passes every check, and unmasking it is masking it twice. -/
theorem buildThenFeedRoundTrips : Obligations.BuildThenFeedRoundTrips := by
  intro s u p hc hlegal hceil hu hparams hcap r hr hcontrol
  obtain ⟨t, key, hbuild, hframe⟩ := build_answers_frame hc hceil r.1
  have hp : p.length < 2 ^ 64 := by have := hlegal.2; omega
  exact ⟨t, _, (exec_buildRow hr s).trans hbuild, hframe,
    exec_feed_encodeFrame hu (validOpcode_of_mem_buildRows hr) hp (hparams ▸ hceil) hcontrol hcap key⟩

/-- Settles O22: by the three length forms. -/
theorem buildUnmaskedFrame : Obligations.BuildUnmaskedFrame := by
  intro s p hc hm hl r hr
  rw [exec_buildRow hr, build_unmasked hc hm hl, encodeFrame_eq, State.respond_eq]
  split_ifs with h h'
  · rw [buildHeader_short h, buildByte1_none]
    rfl
  · rw [buildHeader_ext16 h h', buildByte1_none]
    rfl
  · rw [buildHeader_ext64 h h', buildByte1_none]
    rfl

/-- Settles O23: by the three length forms; the payload is masked from key index 0. -/
theorem buildMaskedFrame : Obligations.BuildMaskedFrame := by
  intro s p hc hm hl r hr
  have hmask : maskFrom s.nextDraw 0 p =
      p.mapIdx fun i b => b ^^^ [s.nextDraw.k0, s.nextDraw.k1, s.nextDraw.k2, s.nextDraw.k3].getD (i % 4) 0#8 := by
    simp only [maskFrom_eq_mapIdx, Nat.zero_add, keyLane_eq]
  rw [exec_buildRow hr, build_masked hc hm hl, encodeFrame_eq, State.respond_eq, ← hmask]
  split_ifs with h h'
  · rw [buildHeader_short h, buildByte1_some _ (by omega)]
    rfl
  · rw [buildHeader_ext16 h h', buildByte1_some _ (by decide)]
    rfl
  · rw [buildHeader_ext64 h h', buildByte1_some _ (by decide)]
    rfl

/-- Settles O25: the header of a built frame has the size `buildOffset`, and masking keeps the length. -/
theorem builtFrameSize : Obligations.BuiltFrameSize := by
  intro s t p bytes r hr ht hframe
  rw [exec_buildRow hr] at ht
  obtain ⟨key, hkey, rfl⟩ := frame_of_build ht hframe
  rw [encodeFrame_length, buildOffset, buildExt, hkey]
  refine ⟨rfl, ?_, ?_⟩ <;> split_ifs <;> omega

/-- Settles O24: the ceiling is checked before any draw. -/
theorem buildOverlongIsErr : Obligations.BuildOverlongIsErr := by
  intro s p hc hl r hr
  rw [exec_buildRow hr, build_overlong hc hl, State.respond_eq]

/-- Settles O26: `build` reads no field of the decoder. -/
theorem buildIgnoresTheDecoder : Obligations.BuildIgnoresTheDecoder := by
  intro s d p r hr
  simp only [exec_buildRow hr]
  exact build_ignores_dec r.1 p s d

end Sys2Proof.Machine
end

section
/-! PROOFS. The family of 60_exceptions.md: the return from ERROR (R204). -/

namespace Sys2Proof.Machine

/-- In ERROR a delivery that answers consumes no byte: it had none (R115), or there is no instance (R182). -/
theorem deliver_dead_dec {chunk : Bytes} {s t : State} (hp : s.dec.phase = .error) (h : deliver chunk s = .next t) :
    t.dec = s.dec := by
  rcases deliver_cases chunk s with ⟨-, hd⟩ | ⟨-, -, -, hd⟩ | ⟨-, -, -, hd⟩ | ⟨-, hlive, -⟩
  · cases hd.symm.trans h; rfl
  · cases hd.symm.trans h; rfl
  · cases hd.symm.trans h
  · exact absurd hp hlive

/-- In ERROR an instruction that answers and is not INIT keeps the decoder. -/
theorem exec_dead_dec {i : Instr} {s t : State} (hp : s.dec.phase = .error) (hi : ∀ m, i ≠ .init m) (h : exec i s = .next t) :
    t.dec = s.dec := by
  rcases exec_cases i s with ⟨m, hm, -⟩ | ⟨p, op, -, hx⟩ | ⟨-, chunk, hx⟩ | ⟨-, r, hx⟩
  · exact absurd hm (hi m)
  · exact (congrArg State.dec (build_frame (hx.symm.trans h)) :)
  · exact deliver_dead_dec hp (hx.symm.trans h)
  · cases hx.symm.trans h; rfl

/-! ### The obligation -/

/-- Settles O35: INIT constructs a new instance, and no other instruction consumes a byte in ERROR. -/
theorem onlyInitLeavesError : Obligations.OnlyInitLeavesError := by
  intro i s t _ hp h
  by_cases hi : ∃ m, i = .init m
  · obtain ⟨m, rfl⟩ := hi
    cases h
    exact .inl ⟨⟨m, rfl⟩, rfl⟩
  · exact .inr ⟨not_exists.mp hi, exec_dead_dec hp (not_exists.mp hi) h⟩

end Sys2Proof.Machine
end
